-- ==== Sys2Proof/Word.lean ====
section
/-! DEFINITION. The word types of the block: bytes (R7) and command words (R55). -/

namespace Sys2Proof

/-- R7: every datum is an 8-bit unsigned byte. -/
abbrev Byte := BitVec 8

/-- R55: the 9-bit command word `CMD9`. -/
abbrev Cmd9 := BitVec 9

/-- R9: the escape marker, the byte that opens a RUN token. -/
abbrev ESC : Byte := 0x00#8

end Sys2Proof
end

