-- ==== Sys2Proof/Syntax.lean ====
section
/-! DEFINITION. The instructions of spec/opcode_table.json, one constructor a row, and the two kinds of encoding they have. -/

namespace Sys2Proof

/-- The two engines of an instance, each with a command port of its own (R3, R59). -/
inductive Engine where
  | enc
  | dec
  deriving DecidableEq, Repr

/-- One constructor per row of spec/opcode_table.json. -/
inductive Instr where
  /-- ENC.PUSH: the next byte of the encoder's input (R81). -/
  | encPush (b : Byte)
  /-- ENC.END: the end of the encoder's input (R88). -/
  | encEnd
  /-- DEC.PUSH: the next byte of the decoder's input (R100). -/
  | decPush (b : Byte)
  /-- DEC.END: the end of the decoder's input (R106 to R108). -/
  | decEnd
  /-- A reserved command word `0x100 | data`, `data ≠ 0`, on a port (R58). -/
  | reservedCommand (port : Engine) (data : Byte)
  /-- LIT: the stream token `b`, `b ≠ 0x00` (R61). -/
  | lit (b : Byte)
  /-- RUN: the stream token `00 L V`, `L ≠ 0x00` (R62). -/
  | run (length value : Byte)
  /-- RUN0: the reserved stream token `00 00 V` (R65). -/
  | run0 (value : Byte)
  deriving DecidableEq, Repr

/-- What an instruction looks like outside the block: a command word on a port (R55, R59), or the bytes of one token of
the decoder's input stream, in stream order (R60). -/
inductive Encoding where
  | command (port : Engine) (c : Cmd9)
  | token (bytes : List Byte)
  deriving DecidableEq, Repr

end Sys2Proof
end

