-- ==== Sys2Proof/WellFormed.lean ====
section
/-! DEFINITION. Which terms of Instr are instructions: the constraints of the opcode table's rows. -/

namespace Sys2Proof

/-- The constraint column of spec/opcode_table.json: a reserved command's data byte is not 0 (R58; 0x100 is END), a
literal is not 0x00 (R61), a RUN's length is not 0x00 (with 0x00 it is RUN0, R65). -/
def Instr.wf : Instr → Bool
  | .encPush _ => true
  | .encEnd => true
  | .decPush _ => true
  | .decEnd => true
  | .reservedCommand _ data => data != 0#8
  | .lit b => b != ESC
  | .run length _ => length != 0#8
  | .run0 _ => true

end Sys2Proof
end

