-- ==== Sys2Proof/Decode.lean ====
section
/-! DEFINITION. The decoder, from command words and stream bytes to instructions, and after it the encoder. -/

namespace Sys2Proof

/-! ## Command words -/

/-- R55: bit `c[8]`, END. -/
def cmdEnd (c : Cmd9) : Bool := c.getLsbD 8

/-- R55, R56: `c[7:0]`, DATA. -/
def cmdData (c : Cmd9) : Byte := c.extractLsb' 0 8

/-- R56, R57, R58: the command a word stands for on the port it is issued to. Total: a word is a PUSH, END or reserved. -/
def decodeCommand (port : Engine) (c : Cmd9) : Instr :=
  match cmdEnd c, port with
  | false, .enc => .encPush (cmdData c)
  | false, .dec => .decPush (cmdData c)
  | true, p =>
    if cmdData c = 0#8 then
      match p with
      | .enc => .encEnd
      | .dec => .decEnd
    else .reservedCommand p (cmdData c)

/-! ## Stream tokens -/

/-- Why bytes are not one token. -/
inductive DecodeReject where
  /-- No byte at all. -/
  | emptyStream
  /-- R60 `incomplete`: a RUN cut off after its marker or its length. -/
  | incompleteToken
  /-- Bytes stand after the first token. -/
  | trailingBytes
  deriving DecidableEq, Repr

/-- R60, R64: the first token of a stream and the bytes after it. The first byte settles the token's length: 3 bytes after
0x00, else 1. -/
def parseToken : List Byte → Except DecodeReject (Instr × List Byte)
  | [] => .error .emptyStream
  | b :: rest =>
    if b = ESC then
      match rest with
      | length :: value :: rest' =>
        .ok (if length = 0#8 then .run0 value else .run length value, rest')
      | _ => .error .incompleteToken
    else .ok (.lit b, rest)

/-- R60: a stream as its tokens, left to right, and the `incomplete` tail (empty for a complete stream). -/
def parseStream : List Byte → List Instr × List Byte
  | [] => ([], [])
  | b :: rest =>
    if b = ESC then
      match rest with
      | length :: value :: rest' =>
        let parsed := parseStream rest'
        ((if length = 0#8 then .run0 value else .run length value) :: parsed.1, parsed.2)
      | _ => ([], b :: rest)
    else
      let parsed := parseStream rest
      (.lit b :: parsed.1, parsed.2)

/-! ## One instruction -/

/-- The instruction an encoding stands for: every command word is one, and bytes are one when they are exactly one token. -/
def decode : Encoding → Except DecodeReject Instr
  | .command port c => .ok (decodeCommand port c)
  | .token bytes =>
    match parseToken bytes with
    | .error r => .error r
    | .ok (i, []) => .ok i
    | .ok (_, _ :: _) => .error .trailingBytes

/-! ## The encoder -/

/-- R56: the PUSH word `0x000 | b`. -/
def pushWord (b : Byte) : Cmd9 := 0#1 ++ b

/-- R55: a word with `c[8] = 1` and the given data; R57: with data 0 it is END. -/
def endWord (data : Byte) : Cmd9 := 1#1 ++ data

/-- The words of an instruction, from the table's encodings (R56 to R58, R61, R62, R65). -/
def encode : Instr → Encoding
  | .encPush b => .command .enc (pushWord b)
  | .encEnd => .command .enc (endWord 0#8)
  | .decPush b => .command .dec (pushWord b)
  | .decEnd => .command .dec (endWord 0#8)
  | .reservedCommand port data => .command port (endWord data)
  | .lit b => .token [b]
  | .run length value => .token [ESC, length, value]
  | .run0 value => .token [ESC, 0#8, value]

/-! ## Table words -/

/-- The engine whose port bit 9 of a table word names: the table gives the port as a column and no bit, so the model reads
it above the nine bits of the word, where the table's own words have 0 (log 8). -/
def tablePort (w : Nat) : Engine := if w.testBit 9 then .dec else .enc

/-- An instruction given as a number, its bits as spec/opcode_table.json numbers them (log 8): 8 bits are a one-byte token,
16 a CMD9 word, 24 a three-byte token whose FIRST stream byte is bits 23..16 ("leftmost 8 characters are the first stream
byte"). -/
def tableEncoding (nbits w : Nat) : Option Encoding :=
  if nbits = 8 then
    if w < 2 ^ 8 then some (.token [BitVec.ofNat 8 w]) else none
  else if nbits = 16 then
    if w < 2 ^ 10 then some (.command (tablePort w) (BitVec.ofNat 9 w)) else none
  else if nbits = 24 then
    if w < 2 ^ 24 then
      some (.token [BitVec.ofNat 8 (w / 2 ^ 16), BitVec.ofNat 8 (w / 2 ^ 8), BitVec.ofNat 8 w])
    else none
  else none

/-- The instruction the decoder reads from a table word, none where it refuses. -/
def decodeTableWord (nbits w : Nat) : Option Instr :=
  match tableEncoding nbits w with
  | none => none
  | some e =>
    match decode e with
    | .ok i => some i
    | .error _ => none

end Sys2Proof
end

