-- ==== Sys2Proof/Config.lean ====
section
/-! DEFINITION. The build-time parameters of an instance (R10, R11, R144). They are plain data that State carries and no
step changes (log 1), so a statement over every state is a statement over every value of them. -/

namespace Sys2Proof

/-- R11: what the decoder does with a length byte of 0x00 in state B (R104). -/
inductive ZeroLengthPolicy where
  | emitNone
  | rereadLength
  deriving DecidableEq, Repr

/-- R10, R11: the parameters of one instance. `none` is an unbounded output buffer. -/
structure Config where
  outCapacity      : Option Nat
  zeroLengthPolicy : ZeroLengthPolicy
  deriving DecidableEq, Repr

/-- R10, R11: the spec's defaults. -/
def Config.specDefault : Config := { outCapacity := none, zeroLengthPolicy := .emitNone }

end Sys2Proof
end

