-- ==== Sys2Proof/Machine/State.lean ====
section
/-! DEFINITION. The state of one instance of the block: both engines, the event history, the build-time parameters, and
what the host has issued and no engine has taken yet. Plain data. -/

namespace Sys2Proof.Machine

/-- R26: the decoder's states, "normal", "expect length", "expect value". The encoding 3 cannot arise. -/
inductive DecPhase where
  | A
  | B
  | C
  deriving DecidableEq, Repr

/-- R120: the two causes of MalformedStream. -/
inductive MalformedKind where
  | missingLength
  | missingValue
  deriving DecidableEq, Repr

/-- R121: what a MalformedStream records. -/
structure MalformedStream where
  kind         : MalformedKind
  escapeOffset : Nat
  inputLength  : Nat
  deriving DecidableEq, Repr

/-- R36: how the outcome of a call reaches the host. -/
inductive Event where
  | result (e : Engine) (bs : List Byte)
  | error (e : Engine) (info : MalformedStream)
  deriving DecidableEq, Repr

/-- R20 to R25: the encoder's fields. ENC_STATUS is hard-wired and has no storage (R24; hostRead reads it). -/
structure EncState where
  value : Byte
  count : Byte
  out   : List Byte
  deriving DecidableEq, Repr

/-- R32: DEC_ERR. -/
structure DecErr where
  escapeOffset : Nat
  inputLength  : Nat
  deriving DecidableEq, Repr

/-- R26 to R32: the decoder's fields; `status` is DEC_STATUS and `err` is DEC_ERR. -/
structure DecState where
  state  : DecPhase
  len    : Byte
  pos    : Nat
  escPos : Nat
  out    : List Byte
  status : BitVec 2
  err    : DecErr
  deriving DecidableEq, Repr

/-- What the host can put to the block (R59, R147; log 2): a command word on a port, bytes of the decoder's input stream
(R60, at least one), or the reset signal. -/
inductive Request where
  | command (port : Engine) (c : Cmd9)
  | stream (first : Byte) (rest : List Byte)
  | reset
  deriving DecidableEq, Repr

/-- R20, R36: the state of an instance. -/
structure State where
  /-- The build-time parameters (R10, R11; log 1). -/
  config  : Config
  enc     : EncState
  dec     : DecState
  /-- The append-only event history, oldest first (R36). -/
  events  : List Event
  /-- Issued by the host and not taken yet, in issue order (R46; log 2). -/
  pending : List Request
  deriving DecidableEq, Repr

/-- Why the machine stops with no next state. -/
inductive Fault where
  /-- R14 `stuck`, R49: the step would make engine `e`'s output buffer longer than OUT_CAPACITY. Raised by ENC.PUSH,
  ENC.END, DEC.PUSH and the tokens; by `step` when no request is enabled. Safe: the spec gives no step there. -/
  | capacityStall (e : Engine)
  deriving DecidableEq, Repr

/-- Why a command has no meaning. -/
inductive Refusal where
  /-- Raised by no arm of exec: every instruction has its meaning. Safe. -/
  | notModelled (mnemonic : String)
  /-- R14 `refused`, R58: a reserved command word. Raised by reserved_command. Safe: the spec refuses it. -/
  | reservedCommand (port : Engine) (data : Byte)
  deriving DecidableEq, Repr

/-- R37, R141: the encoder's fields at the start of a call and after RESET. -/
def EncState.start : EncState := { value := 0#8, count := 0#8, out := [] }

/-- R37: the decoder's fields after RESET. -/
def DecState.reset : DecState :=
  { state := .A, len := 0#8, pos := 0, escPos := 0, out := [], status := 0#2,
    err := { escapeOffset := 0, inputLength := 0 } }

/-- R37, R140: the machine right after RESET, with the spec's default parameters, no event yet and nothing issued. -/
def State.reset : State :=
  { config := Config.specDefault, enc := EncState.start, dec := DecState.reset, events := [], pending := [] }

end Sys2Proof.Machine
end

