-- ==== Sys2Proof/Machine/Operands.lean ====
section
/-! DEFINITION. Operand forms: the bytes a run stands for, in the encoder's direction and the decoder's. -/

namespace Sys2Proof.Machine

/-- R82, R87: the escaped-run of one 0x00, `00 01 00`. -/
def zeroEscape : List Byte := [ESC, 1#8, 0#8]

/-- R80: `Flush(v, c)`, the bytes that encode `c` copies of `v`. -/
def flush (v c : Byte) : List Byte :=
  if c = 0#8 then []
  else if c = 1#8 then [v]
  else if c = 2#8 then [v, v]
  else [ESC, c, v]

/-- R62, R105: `[v] * zext(len)`, the count unsigned, unscaled, 0..255. -/
def runBytes (v len : Byte) : List Byte := List.replicate len.toNat v

end Sys2Proof.Machine
end

