-- ==== Sys2Proof/Machine/Flags.lean ====
section
/-! DEFINITION. The status codes: the block's only flags (R24, R31, R34). -/

namespace Sys2Proof.Machine

/-- R31: the code of a call that completed. -/
def statusOk : BitVec 2 := 0#2

/-- R31, R120: the code of each cause of MalformedStream. -/
def MalformedKind.code : MalformedKind → BitVec 2
  | .missingLength => 1#2
  | .missingValue => 2#2

/-- R24: ENC_STATUS, hard-wired to OK. -/
def encStatusHardwired : BitVec 2 := 0#2

/-- R26: the encoding of `dec.state`. -/
def DecPhase.code : DecPhase → BitVec 2
  | .A => 0#2
  | .B => 1#2
  | .C => 2#2

end Sys2Proof.Machine
end

