-- ==== Sys2Proof/Machine/Ops.lean ====
section
/-! DEFINITION. The named operations the meanings share: Emit under OUT_CAPACITY, the events, the start of a call, the
exception, RESET, and the moves the host has. -/

namespace Sys2Proof.Machine

/-! ## Output -/

/-- An engine's per-call output buffer (R25, R30). -/
def State.outOf (e : Engine) (s : State) : List Byte :=
  match e with
  | .enc => s.enc.out
  | .dec => s.dec.out

/-- R42: append to the end of an engine's buffer. -/
def State.appendOut (e : Engine) (bs : List Byte) (s : State) : State :=
  match e with
  | .enc => { s with enc := { s.enc with out := s.enc.out ++ bs } }
  | .dec => { s with dec := { s.dec with out := s.dec.out ++ bs } }

/-- R49: appending `bs` to `out` does not make it longer than the capacity. A step that emits nothing makes no buffer
longer, so it is never stuck (log 10). -/
def fits (capacity : Option Nat) (out bs : List Byte) : Bool :=
  match capacity with
  | none => true
  | some n => bs.isEmpty || decide (out.length + bs.length ≤ n)

/-- R13 `Emit`, then the other writes `k` of the same step; R49: stuck, with nothing written, when the bytes do not fit. -/
def emitThen (e : Engine) (bs : List Byte) (k : State → State) (s : State) : Host.Outcome State Fault Refusal :=
  if fits s.config.outCapacity (s.outOf e) bs then .next (k (s.appendOut e bs))
  else .fault (.capacityStall e)

/-! ## Encoder fields -/

/-- Write the run in progress (R21, R22). -/
def State.setRun (value count : Byte) (s : State) : State :=
  { s with enc := { s.enc with value := value, count := count } }

/-- R21, R22: no run in progress, both fields unset. -/
def State.clearRun (s : State) : State := s.setRun 0#8 0#8

/-! ## Decoder fields -/

/-- Write the decoder's state and pending length (R26, R27). -/
def State.setPhase (phase : DecPhase) (len : Byte) (s : State) : State :=
  { s with dec := { s.dec with state := phase, len := len } }

/-- Write the offset of the open escape marker (R29). -/
def State.setEscPos (p : Nat) (s : State) : State :=
  { s with dec := { s.dec with escPos := p } }

/-- R28, R100: one more input byte consumed. -/
def State.advancePos (s : State) : State :=
  { s with dec := { s.dec with pos := s.dec.pos + 1 } }

/-- Write DEC_STATUS and DEC_ERR (R31, R32). -/
def State.setStatus (code : BitVec 2) (err : DecErr) (s : State) : State :=
  { s with dec := { s.dec with status := code, err := err } }

/-! ## Calls and events -/

/-- R36: append an event to the history. -/
def State.report (ev : Event) (s : State) : State := { s with events := s.events ++ [ev] }

/-- R141: the encoder's call fields at their start values. -/
def State.startEncCall (s : State) : State := { s with enc := EncState.start }

/-- R141: the decoder's call fields at their start values; DEC_STATUS and DEC_ERR keep the last call's outcome. -/
def State.startDecCall (s : State) : State :=
  { s with dec := { DecState.reset with status := s.dec.status, err := s.dec.err } }

/-! ## The exception -/

/-- R107, R108, R121: what a MalformedStream records. -/
def malformedInfo (kind : MalformedKind) (s : State) : MalformedStream :=
  { kind := kind, escapeOffset := s.dec.escPos, inputLength := s.dec.pos }

/-- R126, R107, R108: taking the one exception of the block. The error is reported, DEC_STATUS and DEC_ERR take it, the
partial output is discarded and the decoder is at the start of a call. There is no return operation (R127): the next DEC.PUSH
starts a new call. -/
def raiseMalformed (kind : MalformedKind) (s : State) : State :=
  ((s.report (.error .dec (malformedInfo kind s))).setStatus kind.code
    { escapeOffset := s.dec.escPos, inputLength := s.dec.pos }).startDecCall

/-! ## RESET and the host's moves -/

/-- R140: RESET sets every field of both engines and leaves the event history; the parameters are build-time (R144). -/
def State.assertReset (s : State) : State := { s with enc := EncState.start, dec := DecState.reset }

/-- R147: the host issues a command word, presents stream bytes or asserts RESET; it lands after what it issued before. -/
def State.hostIssue (r : Request) (s : State) : State := { s with pending := s.pending ++ [r] }

end Sys2Proof.Machine
end

