-- ==== Sys2Proof/Machine/Decoder.lean ====
section
/-! DEFINITION. DEC.PUSH, one definition per arm of R100, and DEC.END, one per state. Each arm of DEC.PUSH ends by advancing
the input offset; it reads the offset from before that. -/

namespace Sys2Proof.Machine

/-- R101 ArmLiteral: in state A a non-zero byte stands for itself. -/
def armLiteral (b : Byte) (s : State) : Host.Outcome State Fault Refusal := emitThen .dec [b] State.advancePos s

/-- R102 ArmEscape: in state A a 0x00 opens a RUN token at this offset. -/
def armEscape (s : State) : Host.Outcome State Fault Refusal :=
  emitThen .dec [] (fun t => ((t.setPhase .B t.dec.len).setEscPos t.dec.pos).advancePos) s

/-- R103 ArmLength: in state B a non-zero byte is the repeat count. -/
def armLength (b : Byte) (s : State) : Host.Outcome State Fault Refusal :=
  emitThen .dec [] (fun t => (t.setPhase .C b).advancePos) s

/-- R104 ArmZeroLength: in state B a 0x00 goes by ZERO_LENGTH_POLICY. -/
def armZeroLength (s : State) : Host.Outcome State Fault Refusal :=
  match s.config.zeroLengthPolicy with
  | .emitNone => emitThen .dec [] (fun t => (t.setPhase .C 0#8).advancePos) s
  | .rereadLength => emitThen .dec [] State.advancePos s

/-- R105 ArmValue: in state C the byte is the value, repeated `dec.len` times as one unit. -/
def armValue (b : Byte) (s : State) : Host.Outcome State Fault Refusal :=
  emitThen .dec (runBytes b s.dec.len) (fun t => ((t.setPhase .A 0#8).setEscPos 0).advancePos) s

/-- R100: DEC.PUSH, the arm chosen from the state before the step. -/
def execDecPush (b : Byte) (s : State) : Host.Outcome State Fault Refusal :=
  match s.dec.state with
  | .A => if b ≠ ESC then armLiteral b s else armEscape s
  | .B => if b ≠ ESC then armLength b s else armZeroLength s
  | .C => armValue b s

/-- R106: DEC.END in state A delivers the buffer, records OK and starts the next call. -/
def endComplete (s : State) : State :=
  ((s.report (.result .dec s.dec.out)).setStatus statusOk { escapeOffset := 0, inputLength := 0 }).startDecCall

/-- R106 to R108: DEC.END, by the state the input ended in. -/
def execDecEnd (s : State) : Host.Outcome State Fault Refusal :=
  match s.dec.state with
  | .A => .next (endComplete s)
  | .B => .next (raiseMalformed .missingLength s)
  | .C => .next (raiseMalformed .missingValue s)

end Sys2Proof.Machine
end

