-- ==== Sys2Proof/Machine/Encoder.lean ====
section
/-! DEFINITION. ENC.PUSH, one definition per arm of R81, and ENC.END. -/

namespace Sys2Proof.Machine

/-- R82 ArmZeroIdle: a 0x00 with no run in progress is escaped at once and starts no run. -/
def armZeroIdle (s : State) : Host.Outcome State Fault Refusal := emitThen .enc zeroEscape id s

/-- R83 ArmStart: a non-zero byte starts a run. -/
def armStart (b : Byte) (s : State) : Host.Outcome State Fault Refusal := emitThen .enc [] (·.setRun b 1#8) s

/-- R84 ArmExtend: the run's own byte makes it one longer. -/
def armExtend (s : State) : Host.Outcome State Fault Refusal :=
  emitThen .enc [] (fun t => t.setRun t.enc.value (t.enc.count + 1#8)) s

/-- R85 ArmFull: the run reaches 255, is flushed and is over. -/
def armFull (s : State) : Host.Outcome State Fault Refusal :=
  emitThen .enc (flush s.enc.value 255#8) State.clearRun s

/-- R86 ArmSwitch: another non-zero byte flushes the run and starts its own. -/
def armSwitch (b : Byte) (s : State) : Host.Outcome State Fault Refusal :=
  emitThen .enc (flush s.enc.value s.enc.count) (·.setRun b 1#8) s

/-- R87 ArmSwitchZero: a 0x00 flushes the run and is escaped. -/
def armSwitchZero (s : State) : Host.Outcome State Fault Refusal :=
  emitThen .enc (flush s.enc.value s.enc.count ++ zeroEscape) State.clearRun s

/-- R81: ENC.PUSH, the arm chosen from the state before the step. -/
def execEncPush (b : Byte) (s : State) : Host.Outcome State Fault Refusal :=
  if s.enc.count = 0#8 then
    if b = ESC then armZeroIdle s else armStart b s
  else if b = s.enc.value then
    if s.enc.count < 254#8 then armExtend s else armFull s
  else if b ≠ ESC then armSwitch b s
  else armSwitchZero s

/-- R88: ENC.END flushes the run in progress, delivers the buffer as one Result and starts the next call. -/
def execEncEnd (s : State) : Host.Outcome State Fault Refusal :=
  emitThen .enc (flush s.enc.value s.enc.count) (fun t => (t.report (.result .enc t.enc.out)).startEncCall) s

end Sys2Proof.Machine
end

