-- ==== Sys2Proof/Machine/Reserved.lean ====
section
/-! DEFINITION. The reserved command words. -/

namespace Sys2Proof.Machine

/-- R58, R125: a reserved word is refused before anything else is looked at, in every state. -/
def execReservedCommand (port : Engine) (data : Byte) (_s : State) : Host.Outcome State Fault Refusal :=
  .refused (.reservedCommand port data)

end Sys2Proof.Machine
end

