-- ==== Sys2Proof/Machine/Tokens.lean ====
section
/-! DEFINITION. The tokens of the decoder's input stream. A token has no command word of its own: the decoder executes it by
taking its bytes in stream order (R43, R60), so its meaning is that of its pushes (logs 6 and 7). -/

namespace Sys2Proof.Machine

/-- Present bytes to the decoder in stream order, one DEC.PUSH each (R41), up to the first that has no step. -/
def presentBytes : List Byte → State → Host.Outcome State Fault Refusal
  | [], s => .next s
  | b :: rest, s =>
    match execDecPush b s with
    | .next t => presentBytes rest t
    | .fault f => .fault f
    | .refused r => .refused r

/-- R61: LIT b. -/
def execLit (b : Byte) (s : State) : Host.Outcome State Fault Refusal := presentBytes [b] s

/-- R62: RUN L V, the bytes `00 L V`. -/
def execRun (length value : Byte) (s : State) : Host.Outcome State Fault Refusal :=
  presentBytes [ESC, length, value] s

/-- R65: RUN0 V, the bytes `00 00 V`. -/
def execRun0 (value : Byte) (s : State) : Host.Outcome State Fault Refusal :=
  presentBytes [ESC, 0#8, value] s

end Sys2Proof.Machine
end

