-- ==== Sys2Proof/Machine/Dispatch.lean ====
section
/-! DEFINITION. One arm per constructor of Instr, each a direct call of its meaning. -/

namespace Sys2Proof.Machine

def exec (i : Instr) (s : State) : Host.Outcome State Fault Refusal :=
  match i with
  | .encPush b => Sys2Proof.Machine.execEncPush b s
  | .encEnd => Sys2Proof.Machine.execEncEnd s
  | .decPush b => Sys2Proof.Machine.execDecPush b s
  | .decEnd => Sys2Proof.Machine.execDecEnd s
  | .reservedCommand port data => Sys2Proof.Machine.execReservedCommand port data s
  | .lit b => Sys2Proof.Machine.execLit b s
  | .run length value => Sys2Proof.Machine.execRun length value s
  | .run0 value => Sys2Proof.Machine.execRun0 value s

end Sys2Proof.Machine
end

