-- ==== Sys2Proof/Machine/Arbiter.lean ====
section
/-! DEFINITION. Which of the issued requests is taken next, and what taking it does. Requests to one engine are taken in
issue order (R46). An engine whose next command has no step (R49) keeps it and waits; the other engine goes on (R47), and a
RESET ends the wait (R49). Logs 2 to 5. -/

namespace Sys2Proof.Machine

/-- The engine a request goes to; RESET goes to both. -/
def Request.engine? : Request → Option Engine
  | .command port _ => some port
  | .stream _ _ => some .dec
  | .reset => none

/-- A request waits behind an earlier one of its engine that has no step. -/
def Request.waitsFor (stuck : List Engine) (r : Request) : Bool :=
  match r.engine? with
  | none => false
  | some e => stuck.contains e

/-- Stream bytes as a request: none when there is no byte left. -/
def streamRequest : List Byte → List Request
  | [] => []
  | b :: rest => [.stream b rest]

/-- The bytes of a stream request are taken token by token (R60). A token that has no step as a whole, and bytes that are not
a whole token, are taken one DEC.PUSH at a time (R41; log 6). -/
def serveStream (first : Byte) (rest : List Byte) (others : List Request) (s : State) :
    Host.Outcome State Fault Refusal :=
  match parseToken (first :: rest) with
  | .ok (i, after) =>
    match exec i { s with pending := streamRequest after ++ others } with
    | .next t => .next t
    | .refused r => .refused r
    | .fault _ => exec (.decPush first) { s with pending := streamRequest rest ++ others }
  | .error _ => exec (.decPush first) { s with pending := streamRequest rest ++ others }

/-- Take request `r`, where `skipped` were issued before it and wait, and `rest` were issued after it. A RESET drops what a
stuck engine had not taken (log 5). -/
def serve (skipped rest : List Request) (r : Request) (s : State) : Host.Outcome State Fault Refusal :=
  match r with
  | .command port c => exec (decodeCommand port c) { s with pending := skipped ++ rest }
  | .stream first more => serveStream first more (skipped ++ rest) s
  | .reset => .next (State.assertReset { s with pending := rest })

/-- Take the first request that is enabled. `stuck` are the engines found to have no step, latest first; `skipped` are the
requests that wait. With no request at all the block keeps its state (R132); with none enabled it is stuck (R14, R49). -/
def takeFirst (stuck : List Engine) (skipped : List Request) :
    List Request → State → Host.Outcome State Fault Refusal
  | [], s =>
    match stuck.getLast? with
    | none => .next s
    | some e => .fault (.capacityStall e)
  | r :: rest, s =>
    if r.waitsFor stuck then takeFirst stuck (skipped ++ [r]) rest s
    else
      match serve skipped rest r s with
      | .next t => .next t
      | .refused x => .refused x
      | .fault (.capacityStall e) => takeFirst (e :: stuck) (skipped ++ [r]) rest s

/-- An encoding as the request that presents it; an empty stream presents nothing. -/
def encodingRequests : Encoding → List Request
  | .command port c => [.command port c]
  | .token bytes => streamRequest bytes

end Sys2Proof.Machine
end

