-- ==== Sys2Proof/Machine/Step.lean ====
section
/-! DEFINITION. One step of the block, and where the host's table words are placed for it. -/

namespace Sys2Proof.Machine

/-- One step: the first enabled request that the host has issued is taken (Machine/Arbiter.lean). -/
def step (s : State) : Host.Outcome State Fault Refusal := takeFirst [] [] s.pending s

/-- The instruction of a table word, presented ahead of everything the host has issued (logs 8 and 9). A word of no format
of the table leaves the state as it is. -/
def State.withFetchWord (s : State) (nbits w : Nat) : State :=
  match tableEncoding nbits w with
  | none => s
  | some e => { s with pending := encodingRequests e ++ s.pending }

end Sys2Proof.Machine
end

