-- ==== Sys2Proof/Machine/Calls.lean ====
section
/-! DEFINITION. Whole calls: the pseudo-instructions of R68 and the functions `encode` (R89) and `decode` (R109) of the
spec, read from the event that a call ends in. (The names differ from Decode.lean's encode and decode, which are about
instruction words.) -/

namespace Sys2Proof.Machine

/-- R68: ENC.CALL, one ENC.PUSH a byte and ENC.END. -/
def encCall (xs : List Byte) : List Instr := xs.map .encPush ++ [.encEnd]

/-- R68: DEC.CALL, one DEC.PUSH a byte and DEC.END. -/
def decCall (ys : List Byte) : List Instr := ys.map .decPush ++ [.decEnd]

/-- Instructions one after the other, up to the first with no next state. -/
def execAll : List Instr → State → Host.Outcome State Fault Refusal
  | [], s => .next s
  | i :: rest, s =>
    match exec i s with
    | .next t => execAll rest t
    | .fault f => .fault f
    | .refused r => .refused r

/-- R37 with the parameters of an instance: the state a call starts from. -/
def startState (config : Config) : State := { State.reset with config := config }

/-- The last event of the history an outcome leaves; none where the run stopped. -/
def lastEvent (o : Host.Outcome State Fault Refusal) : Option Event :=
  match o with
  | .next t => t.events.getLast?
  | .fault _ => none
  | .refused _ => none

/-- R89: `encode(xs)`, the bytes of the Result event of one encoder call; none when the call has no outcome. -/
def encodeBytes (config : Config) (xs : List Byte) : Option (List Byte) :=
  match lastEvent (execAll (encCall xs) (startState config)) with
  | some (.result .enc bs) => some bs
  | _ => none

/-- R109: `decode(ys)`, the bytes of the Result event or the report of the Error event of one decoder call; none when the
call has no outcome. -/
def decodeBytes (config : Config) (ys : List Byte) : Option (Except MalformedStream (List Byte)) :=
  match lastEvent (execAll (decCall ys) (startState config)) with
  | some (.result .dec bs) => some (.ok bs)
  | some (.error .dec info) => some (.error info)
  | _ => none

/-- R89, closed form of one maximal run of `k` copies of `v`: each 0x00 escaped alone; else full runs of 255 and the rest. -/
def runPiece (v : Byte) (k : Nat) : List Byte :=
  if v = ESC then (List.replicate k zeroEscape).flatten
  else (List.replicate (k / 255) [ESC, 255#8, v]).flatten ++ flush v (BitVec.ofNat 8 (k % 255))

/-- R89, closed form of `encode`: split into maximal runs and concatenate the pieces. -/
def encodeClosedForm (xs : List Byte) : List Byte :=
  ((xs.splitBy (· == ·)).map (fun g => runPiece (g.headD 0#8) g.length)).flatten

end Sys2Proof.Machine
end

