-- ==== Sys2Proof/Machine/HostRead.lean ====
section
/-! DEFINITION. The host read interface (R33, R59): every field of R20, read with no side effect. -/

namespace Sys2Proof.Machine

/-- The fields of R20, by the spec's names. -/
inductive HostField where
  | encValue
  | encCount
  | encOut
  | encStatus
  | decState
  | decLen
  | decPos
  | decEscPos
  | decOut
  | decStatus
  | decErr
  deriving DecidableEq, Repr

/-- What a field reads as: a byte, a 2-bit code, a natural number, a byte list or the error record. -/
inductive HostValue where
  | byte (b : Byte)
  | code (c : BitVec 2)
  | nat (n : Nat)
  | bytes (bs : List Byte)
  | report (err : DecErr)
  deriving DecidableEq, Repr

/-- R33: the host reads a field. ENC_STATUS is hard-wired (R24); `dec.state` reads as its encoding (R26). -/
def hostRead (f : HostField) (s : State) : HostValue :=
  match f with
  | .encValue => .byte s.enc.value
  | .encCount => .byte s.enc.count
  | .encOut => .bytes s.enc.out
  | .encStatus => .code encStatusHardwired
  | .decState => .code s.dec.state.code
  | .decLen => .byte s.dec.len
  | .decPos => .nat s.dec.pos
  | .decEscPos => .nat s.dec.escPos
  | .decOut => .bytes s.dec.out
  | .decStatus => .code s.dec.status
  | .decErr => .report s.dec.err

end Sys2Proof.Machine
end

