-- ==== Sys2Proof/Safety.lean ====
section
/-! DEFINITION. What counts as a safe state and a safe run, in the terms the statements use. -/

namespace Sys2Proof

/-- The engine an instruction is for; the tokens are bytes of the decoder's input (R60). -/
def Instr.engine : Instr → Engine
  | .encPush _ => .enc
  | .encEnd => .enc
  | .decPush _ => .dec
  | .decEnd => .dec
  | .reservedCommand port _ => port
  | .lit _ => .dec
  | .run _ _ => .dec
  | .run0 _ => .dec

end Sys2Proof

namespace Sys2Proof.Machine

/-! ## Room in an output buffer -/

/-- R49: `n` more bytes do not pass OUT_CAPACITY in engine `e`'s buffer. -/
def State.HasRoom (e : Engine) (n : Nat) (s : State) : Prop :=
  ∀ cap, s.config.outCapacity = some cap → (s.outOf e).length + n ≤ cap

/-! ## The invariant -/

/-- R22, R23, R25: what holds of the encoder between steps. -/
structure EncState.Inv (config : Config) (e : EncState) : Prop where
  /-- R22: 255 is reached only inside a step. -/
  count_le : e.count.toNat ≤ 254
  /-- R23: no run in progress exactly when the value is unset. -/
  unset_iff : e.count = 0#8 ↔ e.value = 0#8
  /-- R25, R49: the buffer keeps within the capacity. -/
  out_le : ∀ cap, config.outCapacity = some cap → e.out.length ≤ cap

/-- R27 to R32, R50, R105: what holds of the decoder between steps. -/
structure DecState.Inv (config : Config) (d : DecState) : Prop where
  /-- R27, R29: nothing is pending in state A; R50: a byte of input gave at most 85 bytes of output. -/
  inA : d.state = .A → d.len = 0#8 ∧ d.escPos = 0 ∧ d.out.length ≤ 85 * d.pos
  /-- R27, R29: in state B the marker has been consumed and no length is pending. -/
  inB : d.state = .B → d.len = 0#8 ∧ d.escPos + 1 ≤ d.pos ∧ d.out.length ≤ 85 * d.escPos
  /-- R29, R105: in state C marker and length have been consumed, and the length is 0 only under EmitNone. -/
  inC : d.state = .C → d.escPos + 2 ≤ d.pos ∧ d.out.length ≤ 85 * d.escPos ∧
    (d.len = 0#8 → config.zeroLengthPolicy = .emitNone)
  /-- R30, R49: the buffer keeps within the capacity. -/
  out_le : ∀ cap, config.outCapacity = some cap → d.out.length ≤ cap
  /-- R31: code 3 is never written. -/
  status_ne : d.status ≠ 3#2
  /-- R32: no error report without an error. -/
  err_ok : d.status = 0#2 → d.err = { escapeOffset := 0, inputLength := 0 }
  /-- R32, R107: the input ended after the marker. -/
  err_missingLength : d.status = 1#2 → d.err.escapeOffset + 1 ≤ d.err.inputLength
  /-- R32, R108: the input ended after the length. -/
  err_missingValue : d.status = 2#2 → d.err.escapeOffset + 2 ≤ d.err.inputLength

/-- R36, R49, R120: what an event may say. Only the decoder fails, the open marker was part of the input, and no delivered
output passes the capacity. -/
def Event.Inv (config : Config) : Event → Prop
  | .result _ bs => ∀ cap, config.outCapacity = some cap → bs.length ≤ cap
  | .error e info => e = .dec ∧ info.escapeOffset < info.inputLength

/-- The invariant of the block. -/
structure State.Inv (s : State) : Prop where
  enc : s.enc.Inv s.config
  dec : s.dec.Inv s.config
  events : ∀ ev ∈ s.events, ev.Inv s.config

/-! ## Runs -/

/-- How many bytes and commands a list of requests is: no run of as many steps leaves any of them. -/
def requestsSize (rs : List Request) : Nat :=
  (rs.map (fun r => match r with
    | .command _ _ => 1
    | .stream _ rest => rest.length + 1
    | .reset => 1)).sum

/-- R58, R146: the host has issued no reserved command word. -/
def State.NoReservedIssued (s : State) : Prop :=
  ∀ port data, data ≠ 0#8 → Request.command port (endWord data) ∉ s.pending

/-- A safe run: `k` steps from `s` meet neither a stall nor a refusal and end in `t`. -/
def SafeRun (k : Nat) (s t : State) : Prop := Sys2Proof.core.run k s = .next t

/-! ## Stalls -/

/-- R49: request `r` has no step at `s`: its command has none, or the first push of its bytes has none (and so its token,
which begins with that push, has none either). RESET always has one. -/
def Request.HasNoStep (r : Request) (s : State) : Prop :=
  match r with
  | .command port c => ∃ f, exec (decodeCommand port c) s = .fault f
  | .stream first _ => ∃ f, exec (.decPush first) s = .fault f
  | .reset => False

/-- R46, R49: every request of `rs` waits. None is a RESET, and the first one for an engine has no step. -/
def AllWait (rs : List Request) (s : State) : Prop :=
  Request.reset ∉ rs ∧ ∀ e r, rs.find? (fun q => q.engine? == some e) = some r → r.HasNoStep s

/-! ## Tokens -/

/-- The stream bytes of a token; none for a command. -/
def tokenBytes (i : Instr) : List Byte :=
  match encode i with
  | .command _ _ => []
  | .token bytes => bytes

/-- R60, R61, R62, R65: a token of the stream. -/
def IsToken (i : Instr) : Prop :=
  i.wf = true ∧ ((∃ b, i = .lit b) ∨ (∃ length value, i = .run length value) ∨ ∃ value, i = .run0 value)

/-- R60: what a stream may end with after its tokens: nothing, or `incomplete`. -/
def IsTail (bytes : List Byte) : Prop := bytes = [] ∨ bytes = [0x00#8] ∨ ∃ length, bytes = [0x00#8, length]

/-- R60, R62, R104: the bytes a token stands for under EmitNone. -/
def tokenExpansion : Instr → List Byte
  | .lit b => [b]
  | .run length value => runBytes value length
  | _ => []

/-- R66: the tokens the encoder emits. -/
def CanonicalToken (i : Instr) : Prop :=
  (∃ v, v ≠ 0#8 ∧ i = .lit v) ∨ i = .run 1#8 0#8 ∨ (∃ length v, 3 ≤ length.toNat ∧ v ≠ 0#8 ∧ i = .run length v)

end Sys2Proof.Machine
end

