-- ==== Sys2Proof/Certificates/Slice0/Obligations.lean ====
section
/-! DEFINITION. The statements for the provers, from the numbered rules of spec/. -/

open Sys2Proof Sys2Proof.Machine

/-! ## Reset -/

/-- R37: the value of every field after RESET, ENC_STATUS among them. -/
def Obligations.ResetHoldsTheSpecValues : Prop :=
  State.reset.enc = { value := 0x00#8, count := 0#8, out := [] } ∧
  hostRead .encStatus State.reset = .code 0#2 ∧
  State.reset.dec =
    { state := .A, len := 0#8, pos := 0, escPos := 0, out := [], status := 0#2,
      err := { escapeOffset := 0, inputLength := 0 } }

/-- R140, R142: RESET, when its turn comes, sets both engines, delivers nothing and leaves the event history. That the
parameters and the later requests stay is the model's (logs 1, 2). -/
def Obligations.ResetSetsBothEnginesAndKeepsTheHistory : Prop :=
  ∀ (s : State) (rest : List Request), s.pending = .reset :: rest →
    step s = .next
      { s with
        enc := { value := 0x00#8, count := 0#8, out := [] }
        dec := { state := .A, len := 0#8, pos := 0, escPos := 0, out := [], status := 0#2,
                 err := { escapeOffset := 0, inputLength := 0 } }
        pending := rest }

/-! ## Encoder -/

/-- R80: the flush rule. -/
def Obligations.FlushEncodesARun : Prop :=
  ∀ v c : Byte,
    flush v 0#8 = [] ∧ flush v 1#8 = [v] ∧ flush v 2#8 = [v, v] ∧ (2 < c.toNat → flush v c = [0x00#8, c, v])

/-- R82 ArmZeroIdle. -/
def Obligations.EncPushEscapesAZeroByteWhenIdle : Prop :=
  ∀ s : State, s.enc.count = 0#8 → s.HasRoom .enc 3 →
    exec (.encPush 0x00#8) s = .next { s with enc := { s.enc with out := s.enc.out ++ [0x00#8, 0x01#8, 0x00#8] } }

/-- R83 ArmStart. -/
def Obligations.EncPushStartsARun : Prop :=
  ∀ (s : State) (b : Byte), s.enc.count = 0#8 → b ≠ 0x00#8 →
    exec (.encPush b) s = .next { s with enc := { s.enc with value := b, count := 1#8 } }

/-- R84 ArmExtend: the count grows by one as a number, in 2..254. -/
def Obligations.EncPushExtendsTheRun : Prop :=
  ∀ s : State, s.enc.count ≠ 0#8 → s.enc.count.toNat ≤ 253 →
    ∃ count : Byte, count.toNat = s.enc.count.toNat + 1 ∧ 2 ≤ count.toNat ∧ count.toNat ≤ 254 ∧
      exec (.encPush s.enc.value) s = .next { s with enc := { s.enc with count := count } }

/-- R85 ArmFull. -/
def Obligations.EncPushFlushesAFullRun : Prop :=
  ∀ s : State, s.enc.count.toNat = 254 → s.HasRoom .enc 3 →
    exec (.encPush s.enc.value) s =
      .next { s with enc := { value := 0x00#8, count := 0#8, out := s.enc.out ++ [0x00#8, 0xFF#8, s.enc.value] } }

/-- R86 ArmSwitch. -/
def Obligations.EncPushSwitchesToAnotherRun : Prop :=
  ∀ (s : State) (b : Byte), s.enc.count ≠ 0#8 → b ≠ s.enc.value → b ≠ 0x00#8 →
    s.HasRoom .enc (flush s.enc.value s.enc.count).length →
    exec (.encPush b) s =
      .next { s with enc := { value := b, count := 1#8, out := s.enc.out ++ flush s.enc.value s.enc.count } }

/-- R87 ArmSwitchZero. -/
def Obligations.EncPushSwitchesToAZeroByte : Prop :=
  ∀ s : State, s.enc.count ≠ 0#8 → s.enc.value ≠ 0x00#8 →
    s.HasRoom .enc ((flush s.enc.value s.enc.count).length + 3) →
    exec (.encPush 0x00#8) s =
      .next { s with enc := { value := 0x00#8, count := 0#8,
                              out := s.enc.out ++ flush s.enc.value s.enc.count ++ [0x00#8, 0x01#8, 0x00#8] } }

/-- R88: ENC.END. -/
def Obligations.EncEndDeliversTheOutput : Prop :=
  ∀ s : State, s.HasRoom .enc (flush s.enc.value s.enc.count).length →
    exec .encEnd s =
      .next { s with enc := { value := 0x00#8, count := 0#8, out := [] }
                     events := s.events ++ [.result .enc (s.enc.out ++ flush s.enc.value s.enc.count)] }

/-- R90: with an unbounded buffer ENC.PUSH has a next state for every byte in every state, and so has ENC.END. -/
def Obligations.EncoderIsTotal : Prop :=
  ∀ s : State, s.config.outCapacity = none →
    (∀ b : Byte, ∃ t, exec (.encPush b) s = .next t) ∧ (∃ t, exec .encEnd s = .next t)

/-- What the encoder's instructions leave alone: the decoder with its status registers, the parameters and the requests
(R20, R24, R33); ENC.PUSH reports no event and only appends to the buffer (R42), ENC.END reports exactly one (R36). -/
def Obligations.EncoderInstructionsFrame : Prop :=
  ∀ (s t : State),
    (∀ b : Byte, exec (.encPush b) s = .next t →
      t.dec = s.dec ∧ t.config = s.config ∧ t.pending = s.pending ∧ t.events = s.events ∧
      ∃ bs, t.enc.out = s.enc.out ++ bs) ∧
    (exec .encEnd s = .next t →
      t.dec = s.dec ∧ t.config = s.config ∧ t.pending = s.pending ∧
      ∃ bs, t.events = s.events ++ [.result .enc (s.enc.out ++ bs)])

/-! ## Decoder -/

/-- R101 ArmLiteral. -/
def Obligations.DecPushEmitsALiteral : Prop :=
  ∀ (s : State) (b : Byte), s.dec.state = .A → b ≠ 0x00#8 → s.HasRoom .dec 1 →
    exec (.decPush b) s = .next { s with dec := { s.dec with out := s.dec.out ++ [b], pos := s.dec.pos + 1 } }

/-- R102 ArmEscape: the marker's offset is the position before the step. -/
def Obligations.DecPushOpensAnEscape : Prop :=
  ∀ s : State, s.dec.state = .A →
    exec (.decPush 0x00#8) s =
      .next { s with dec := { s.dec with state := .B, escPos := s.dec.pos, pos := s.dec.pos + 1 } }

/-- R103 ArmLength. -/
def Obligations.DecPushTakesTheLength : Prop :=
  ∀ (s : State) (b : Byte), s.dec.state = .B → b ≠ 0x00#8 →
    exec (.decPush b) s = .next { s with dec := { s.dec with state := .C, len := b, pos := s.dec.pos + 1 } }

/-- R104 ArmZeroLength, under both values of ZERO_LENGTH_POLICY. -/
def Obligations.DecPushTakesAZeroLengthByThePolicy : Prop :=
  ∀ s : State, s.dec.state = .B →
    (s.config.zeroLengthPolicy = .emitNone →
      exec (.decPush 0x00#8) s = .next { s with dec := { s.dec with state := .C, len := 0#8, pos := s.dec.pos + 1 } }) ∧
    (s.config.zeroLengthPolicy = .rereadLength →
      exec (.decPush 0x00#8) s = .next { s with dec := { s.dec with pos := s.dec.pos + 1 } })

/-- R105 ArmValue: the repeat count is the pending length read unsigned. -/
def Obligations.DecPushRepeatsTheValue : Prop :=
  ∀ (s : State) (b : Byte), s.dec.state = .C → s.HasRoom .dec s.dec.len.toNat →
    exec (.decPush b) s =
      .next { s with dec := { s.dec with state := .A, len := 0#8, escPos := 0, pos := s.dec.pos + 1,
                                         out := s.dec.out ++ List.replicate s.dec.len.toNat b } }

/-- R106: DEC.END in state A. `dec.state` is already A. -/
def Obligations.DecEndDeliversACompleteStream : Prop :=
  ∀ s : State, s.dec.state = .A →
    exec .decEnd s =
      .next { s with
        dec := { state := .A, len := 0#8, pos := 0, escPos := 0, out := [], status := 0#2,
                 err := { escapeOffset := 0, inputLength := 0 } }
        events := s.events ++ [.result .dec s.dec.out] }

/-- R107, R108: DEC.END in state B and in state C. -/
def Obligations.DecEndReportsACutOffToken : Prop :=
  ∀ s : State,
    (s.dec.state = .B →
      exec .decEnd s =
        .next { s with
          dec := { state := .A, len := 0#8, pos := 0, escPos := 0, out := [], status := 1#2,
                   err := { escapeOffset := s.dec.escPos, inputLength := s.dec.pos } }
          events := s.events ++
            [.error .dec { kind := .missingLength, escapeOffset := s.dec.escPos, inputLength := s.dec.pos }] }) ∧
    (s.dec.state = .C →
      exec .decEnd s =
        .next { s with
          dec := { state := .A, len := 0#8, pos := 0, escPos := 0, out := [], status := 2#2,
                   err := { escapeOffset := s.dec.escPos, inputLength := s.dec.pos } }
          events := s.events ++
            [.error .dec { kind := .missingValue, escapeOffset := s.dec.escPos, inputLength := s.dec.pos }] })

/-- R111, R125: with an unbounded buffer DEC.PUSH has a next state for every byte in every state, one input byte further;
DEC.END has one whatever the buffer. -/
def Obligations.DecoderIsTotal : Prop :=
  ∀ s : State,
    (s.config.outCapacity = none → ∀ b : Byte, ∃ t, exec (.decPush b) s = .next t ∧ t.dec.pos = s.dec.pos + 1) ∧
    (∃ t, exec .decEnd s = .next t)

/-- What the decoder's instructions leave alone: the encoder, the parameters and the requests (R20, R33). DEC.PUSH and the
tokens write no status register (R31, R32), report no event (R36) and only append to the buffer (R42); DEC.END reports
exactly one event (R36). -/
def Obligations.DecoderInstructionsFrame : Prop :=
  ∀ (s t : State) (i : Instr), exec i s = .next t →
    (((∃ b, i = .decPush b) ∨ (∃ b, i = .lit b) ∨ (∃ l v, i = .run l v) ∨ (∃ v, i = .run0 v)) →
      t.enc = s.enc ∧ t.config = s.config ∧ t.pending = s.pending ∧ t.events = s.events ∧
      t.dec.status = s.dec.status ∧ t.dec.err = s.dec.err ∧ ∃ bs, t.dec.out = s.dec.out ++ bs) ∧
    (i = .decEnd →
      t.enc = s.enc ∧ t.config = s.config ∧ t.pending = s.pending ∧ ∃ ev, t.events = s.events ++ [ev])

/-! ## Tokens -/

/-- R61: at a token boundary LIT stands for its byte. -/
def Obligations.LitTokenStandsForItsByte : Prop :=
  ∀ (s : State) (b : Byte), s.dec.state = .A → b ≠ 0x00#8 → s.HasRoom .dec 1 →
    exec (.lit b) s = .next { s with dec := { s.dec with out := s.dec.out ++ [b], pos := s.dec.pos + 1 } }

/-- R62: at a token boundary RUN L V stands for `[V]*L`, the count unsigned, unscaled and unbiased. -/
def Obligations.RunTokenStandsForItsRepeat : Prop :=
  ∀ (s : State) (length value : Byte), s.dec.state = .A → length ≠ 0x00#8 → s.HasRoom .dec length.toNat →
    exec (.run length value) s =
      .next { s with dec := { s.dec with len := 0#8, escPos := 0, pos := s.dec.pos + 3,
                                         out := s.dec.out ++ List.replicate length.toNat value } }

/-- R65, R104: at a token boundary RUN0 V emits nothing under EmitNone; under RereadLength its last byte is read as the
length (and again, when it is 0x00). -/
def Obligations.Run0TokenFollowsThePolicy : Prop :=
  ∀ (s : State) (value : Byte), s.dec.state = .A →
    (s.config.zeroLengthPolicy = .emitNone →
      exec (.run0 value) s = .next { s with dec := { s.dec with len := 0#8, escPos := 0, pos := s.dec.pos + 3 } }) ∧
    (s.config.zeroLengthPolicy = .rereadLength → value ≠ 0x00#8 →
      exec (.run0 value) s =
        .next { s with dec := { s.dec with state := .C, len := value, escPos := s.dec.pos, pos := s.dec.pos + 3 } }) ∧
    (s.config.zeroLengthPolicy = .rereadLength → value = 0x00#8 →
      exec (.run0 value) s =
        .next { s with dec := { s.dec with state := .B, escPos := s.dec.pos, pos := s.dec.pos + 3 } })

/-- R41, R60: in EVERY state a token is its bytes, one DEC.PUSH each in stream order, stalls among them (logs 6 and 7). -/
def Obligations.TokensAreTheirPushes : Prop :=
  ∀ (s : State) (a b : Byte),
    exec (.lit a) s = execAll [.decPush a] s ∧
    exec (.run a b) s = execAll [.decPush 0x00#8, .decPush a, .decPush b] s ∧
    exec (.run0 a) s = execAll [.decPush 0x00#8, .decPush 0x00#8, .decPush a] s

/-! ## Stops -/

/-- R58, R125: a reserved command word is refused in every state, whatever the buffers. -/
def Obligations.ReservedCommandIsRefused : Prop :=
  ∀ (s : State) (port : Engine) (data : Byte), data ≠ 0#8 →
    decodeCommand port (endWord data) = .reservedCommand port data ∧
    exec (.reservedCommand port data) s = .refused (.reservedCommand port data)

/-- R49: a push does under a finite capacity what it does under none, but for one case: it has no step where it would
lengthen its buffer past the capacity. (A push that emits nothing lengthens no buffer: log 10.) -/
def Obligations.PushStallsExactlyPastTheCapacity : Prop :=
  ∀ (s : State) (cap : Nat) (i : Instr), s.config.outCapacity = some cap →
    ((∃ b, i = .encPush b) ∨ (∃ b, i = .decPush b)) →
    ∃ t, exec i { s with config := { s.config with outCapacity := none } } = .next t ∧
      (t.outOf i.engine ≠ s.outOf i.engine ∧ cap < (t.outOf i.engine).length →
        exec i s = .fault (.capacityStall i.engine)) ∧
      (¬ (t.outOf i.engine ≠ s.outOf i.engine ∧ cap < (t.outOf i.engine).length) →
        exec i s = .next { t with config := s.config })

/-- R49, R88: ENC.END has no step exactly where its flush would lengthen the buffer past the capacity. (That an empty flush is
never stuck, also in a buffer already past it: log 10.) -/
def Obligations.EncEndStallsExactlyPastTheCapacity : Prop :=
  ∀ (s : State) (cap : Nat), s.config.outCapacity = some cap →
    ∃ t bs, exec .encEnd { s with config := { s.config with outCapacity := none } } = .next t ∧
      t.events = s.events ++ [.result .enc bs] ∧
      (bs ≠ s.enc.out ∧ cap < bs.length → exec .encEnd s = .fault (.capacityStall .enc)) ∧
      (¬ (bs ≠ s.enc.out ∧ cap < bs.length) → exec .encEnd s = .next { t with config := s.config })

/-- R44: the most one step appends: 6 bytes for ENC.PUSH, 3 for ENC.END, 255 for DEC.PUSH. -/
def Obligations.OneStepAppendsAtMostItsWidth : Prop :=
  ∀ (s t : State),
    (∀ b, exec (.encPush b) s = .next t → t.enc.out.length ≤ s.enc.out.length + 6) ∧
    (∀ bs, exec .encEnd s = .next t → t.events = s.events ++ [.result .enc bs] → bs.length ≤ s.enc.out.length + 3) ∧
    (∀ b, exec (.decPush b) s = .next t → t.dec.out.length ≤ s.dec.out.length + 255)

/-! ## Host reads -/

/-- R24, R26, R33: every field of R20 reads as it is held, ENC_STATUS as 0 and `dec.state` as its code. -/
def Obligations.HostReadsEveryField : Prop :=
  ∀ s : State,
    hostRead .encValue s = .byte s.enc.value ∧ hostRead .encCount s = .byte s.enc.count ∧
    hostRead .encOut s = .bytes s.enc.out ∧ hostRead .encStatus s = .code 0#2 ∧
    (s.dec.state = .A → hostRead .decState s = .code 0#2) ∧ (s.dec.state = .B → hostRead .decState s = .code 1#2) ∧
    (s.dec.state = .C → hostRead .decState s = .code 2#2) ∧
    hostRead .decLen s = .byte s.dec.len ∧ hostRead .decPos s = .nat s.dec.pos ∧
    hostRead .decEscPos s = .nat s.dec.escPos ∧ hostRead .decOut s = .bytes s.dec.out ∧
    hostRead .decStatus s = .code s.dec.status ∧ hostRead .decErr s = .report s.dec.err

/-! ## Encodings -/

/-- R56, R57, R58, R61, R62, R65: words written out bit by bit from the encodings stand for their instructions. -/
def Obligations.WordsStandForTheirInstructions : Prop :=
  decode (.command .enc 0b001000001#9) = .ok (.encPush 0x41#8) ∧
  decode (.command .dec 0b011111111#9) = .ok (.decPush 0xFF#8) ∧
  decode (.command .enc 0b100000000#9) = .ok .encEnd ∧
  decode (.command .dec 0b100000000#9) = .ok .decEnd ∧
  decode (.command .dec 0b100000001#9) = .ok (.reservedCommand .dec 0x01#8) ∧
  decode (.token [0b01001101#8]) = .ok (.lit 0x4D#8) ∧
  decode (.token [0b00000000#8, 0b00010111#8, 0b00111101#8]) = .ok (.run 23#8 0x3D#8) ∧
  decode (.token [0b00000000#8, 0b00000000#8, 0b01000001#8]) = .ok (.run0 0x41#8)

/-- Decoding the encoding of any well-formed instruction gives it back, at every value of every operand. -/
def Obligations.DecodeOfEncodeIsTheInstruction : Prop :=
  ∀ i : Instr, i.wf = true → decode (encode i) = .ok i

/-- What decodes is well formed and has one encoding only. -/
def Obligations.EncodeOfDecodeIsTheWord : Prop :=
  ∀ (e : Encoding) (i : Instr), decode e = .ok i → i.wf = true ∧ encode i = e

/-- R60, R64: every stream parses as tokens and an incomplete tail, in exactly one way: parseStream gives tokens and a tail
whose bytes, joined, are the stream, and any tokens and tail whose bytes, joined, are the stream are those. -/
def Obligations.EveryStreamParsesToTokens : Prop :=
  ∀ ys : List Byte,
    ((parseStream ys).1.map tokenBytes).flatten ++ (parseStream ys).2 = ys ∧
    (∀ i ∈ (parseStream ys).1, IsToken i) ∧ IsTail (parseStream ys).2 ∧
    ∀ (tokens : List Instr) (tail : List Byte), (∀ i ∈ tokens, IsToken i) → IsTail tail →
      (tokens.map tokenBytes).flatten ++ tail = ys → parseStream ys = (tokens, tail)

/-! ## Steps -/

/-- R14, R46: a step runs the decoded instruction. Where the request whose turn it is presents the encoding of `i`, the step
is exec of `i` at the state with that request taken, wherever `i` has a step there. The requests are the model's (log 2), and so
is that one step runs a whole token (log 6): R14 gives one command a step, and a token is one or three. -/
def Obligations.StepRunsTheDecodedInstruction : Prop :=
  ∀ (s : State) (e : Encoding) (i : Instr) (rest : List Request),
    decode e = .ok i → s.pending = encodingRequests e ++ rest →
    (∀ f, exec i { s with pending := rest } ≠ .fault f) →
    step s = exec i { s with pending := rest }

/-- R41, R60, R64 (log 6): the bytes of a stream request are taken token by token; a token with no step as a whole, and a
byte that opens no whole token, is taken one DEC.PUSH at a time. (Where that push has no step either, the stream waits:
AStalledEngineHoldsUpOnlyItself and ResetEndsAStall.) -/
def Obligations.StepTakesStreamBytesInOrder : Prop :=
  ∀ (s : State) (b : Byte) (more : List Byte) (rest : List Request), s.pending = .stream b more :: rest →
    (∀ i after, parseToken (b :: more) = .ok (i, after) →
      ((∀ f, exec i { s with pending := streamRequest after ++ rest } ≠ .fault f) →
        step s = exec i { s with pending := streamRequest after ++ rest }) ∧
      (∀ f t, exec i { s with pending := streamRequest after ++ rest } = .fault f →
        exec (.decPush b) { s with pending := streamRequest more ++ rest } = .next t → step s = .next t)) ∧
    (∀ r t, parseToken (b :: more) = .error r →
      exec (.decPush b) { s with pending := streamRequest more ++ rest } = .next t → step s = .next t)

/-- A table word placed by the host is what the next step runs, with nothing else changed (logs 8 and 9; a token's word as one
step: log 6). -/
def Obligations.StepRunsThePlacedTableWord : Prop :=
  ∀ (s : State) (nbits w : Nat) (i : Instr), decodeTableWord nbits w = some i →
    (∀ f, exec i s ≠ .fault f) → step (s.withFetchWord nbits w) = exec i s

/-- R132: with nothing issued the block keeps its state. -/
def Obligations.IdleStepKeepsTheState : Prop :=
  ∀ s : State, s.pending = [] → step s = .next s

/-- R46, R47, R49: an engine stuck at a request, a command or stream bytes, keeps it and whatever was issued to it `behind`,
and the other engine's next request, a command or stream bytes, is taken as if they were not there. Where every request waits,
the step is the stall. (That the requests wait in one list, and what a step is then: logs 2 and 4; a token as one step: log 6.) -/
def Obligations.AStalledEngineHoldsUpOnlyItself : Prop :=
  ∀ (s : State) (p : Engine) (blocked : Request) (behind rest : List Request),
    blocked.engine? = some p → (∀ r ∈ behind, r.engine? = some p) → blocked.HasNoStep s →
    (∀ q c, q ≠ p → s.pending = blocked :: behind ++ .command q c :: rest →
      (∀ f, exec (decodeCommand q c) { s with pending := blocked :: behind ++ rest } ≠ .fault f) →
      step s = exec (decodeCommand q c) { s with pending := blocked :: behind ++ rest }) ∧
    (∀ b more, p ≠ .dec → s.pending = blocked :: behind ++ .stream b more :: rest →
      (∀ i after, parseToken (b :: more) = .ok (i, after) →
        (∀ f, exec i { s with pending := streamRequest after ++ (blocked :: behind ++ rest) } ≠ .fault f) →
        step s = exec i { s with pending := streamRequest after ++ (blocked :: behind ++ rest) }) ∧
      (∀ t, (∀ i after, parseToken (b :: more) = .ok (i, after) →
          ∃ f, exec i { s with pending := streamRequest after ++ (blocked :: behind ++ rest) } = .fault f) →
        exec (.decPush b) { s with pending := streamRequest more ++ (blocked :: behind ++ rest) } = .next t →
        step s = .next t)) ∧
    (∀ others, s.pending = blocked :: others → AllWait (blocked :: others) s → step s = .fault (.capacityStall p))

/-- R49: RESET ends a stall: it is taken past every request that waits, of one engine or of both, commands and stream bytes. That
it stands behind them in one list is the model's (logs 2 and 4), and so is that they go with it (log 5). -/
def Obligations.ResetEndsAStall : Prop :=
  ∀ (s : State) (waiting rest : List Request), AllWait waiting s → s.pending = waiting ++ .reset :: rest →
    step s = .next { s with enc := State.reset.enc, dec := State.reset.dec, pending := rest }

/-- R49, R58, R111, R122: the only stops of a step. It is stuck only where a finite capacity was declared, something was
issued and no RESET stands; it refuses only a reserved command word that the host has issued (the requests and what a step makes of them: logs 2 and 4). -/
def Obligations.StepStopsOnlyForCapacityOrReservedWords : Prop :=
  ∀ s : State,
    (∀ f, step s = .fault f →
      (∃ cap, s.config.outCapacity = some cap) ∧ s.pending ≠ [] ∧ Request.reset ∉ s.pending) ∧
    (∀ r, step s = .refused r →
      ∃ port data, data ≠ 0#8 ∧ r = .reservedCommand port data ∧ Request.command port (endWord data) ∈ s.pending)

/-- R31, R32: DEC_STATUS and DEC_ERR change only where DEC.END or RESET was issued (the requests: log 2), and DEC.END then
reported its event. -/
def Obligations.StatusIsWrittenOnlyByDecEndOrReset : Prop :=
  ∀ s t : State, step s = .next t →
    (t.dec.status = s.dec.status ∧ t.dec.err = s.dec.err) ∨
    (Request.command .dec 0x100#9 ∈ s.pending ∧
      ((∃ bs, t.events = s.events ++ [.result .dec bs]) ∨ ∃ info, t.events = s.events ++ [.error .dec info])) ∨
    (Request.reset ∈ s.pending ∧ t.dec = State.reset.dec ∧ t.enc = State.reset.enc)

/-- R36, R144: a step appends at most one event to the history, changes no build-time parameter, and issues no request:
what is pending afterwards was issued before, or is the rest of a stream's bytes (the requests: log 2). -/
def Obligations.StepFrame : Prop :=
  ∀ s t : State, step s = .next t →
    (t.events = s.events ∨ ∃ ev, t.events = s.events ++ [ev]) ∧
    t.config = s.config ∧ requestsSize t.pending ≤ requestsSize s.pending ∧
    ∀ port c, Request.command port c ∈ t.pending → Request.command port c ∈ s.pending

/-! ## The invariant -/

/-- R37: the invariant holds after RESET. -/
def Obligations.ResetMeetsTheInvariant : Prop := State.reset.Inv

/-- R22, R23, R27, R29, R31, R32, R49, R50, R105: every step keeps the invariant of Safety.lean: the encoder's count is at
most 254 and 0 exactly when its value is unset; the decoder's pending fields, offsets, output and error report agree with its
state; no code 3; no buffer and no delivered output past the capacity. -/
def Obligations.StepKeepsTheInvariant : Prop :=
  ∀ s t : State, s.Inv → step s = .next t → t.Inv

/-! ## The two engines -/

/-- R20, R47: what an instruction does to its engine and to the history does not depend on the other engine, which it leaves
as it is. -/
def Obligations.AnEngineDoesNotSeeTheOther : Prop :=
  ∀ (s u t : State) (i : Instr), s.config = u.config → exec i s = .next t →
    (i.engine = .enc → s.enc = u.enc →
      t.dec = s.dec ∧ ∃ v evs, exec i u = .next v ∧ v.enc = t.enc ∧ v.dec = u.dec ∧
        t.events = s.events ++ evs ∧ v.events = u.events ++ evs) ∧
    (i.engine = .dec → s.dec = u.dec →
      t.enc = s.enc ∧ ∃ v evs, exec i u = .next v ∧ v.dec = t.dec ∧ v.enc = u.enc ∧
        t.events = s.events ++ evs ∧ v.events = u.events ++ evs)

/-- R47, R145: an encoder instruction and a decoder instruction may be taken in either order; only the order of their events
differs. -/
def Obligations.EngineStepsCommute : Prop :=
  ∀ (s a t : State) (i j : Instr), i.engine = .enc → j.engine = .dec →
    exec i s = .next a → exec j a = .next t →
    ∃ b u, exec j s = .next b ∧ exec i b = .next u ∧
      u.enc = t.enc ∧ u.dec = t.dec ∧ u.config = t.config ∧ u.pending = t.pending ∧ u.events.Perm t.events

/-! ## Whole calls -/

/-- R141: an encoder call from any state at the start of a call, whatever the history, the decoder and the earlier calls,
delivers `encode` of its input and leaves the start of a call. -/
def Obligations.EncoderCallDeliversEncode : Prop :=
  ∀ (s : State) (xs : List Byte), s.config.outCapacity = none → s.enc = State.reset.enc →
    ∃ ys, encodeBytes s.config xs = some ys ∧
      execAll (encCall xs) s = .next { s with events := s.events ++ [.result .enc ys] }

/-- R109, R127, R141: a decoder call from any state at the start of a call ends in one event, the outcome of `decode`;
DEC_STATUS and DEC_ERR take it, the other fields are at the start of a call. -/
def Obligations.DecoderCallReportsDecode : Prop :=
  ∀ (s : State) (ys : List Byte), s.config.outCapacity = none →
    s.dec = { State.reset.dec with status := s.dec.status, err := s.dec.err } →
    (∃ xs, decodeBytes s.config ys = some (.ok xs) ∧
      execAll (decCall ys) s =
        .next { s with dec := State.reset.dec, events := s.events ++ [.result .dec xs] }) ∨
    (∃ info, decodeBytes s.config ys = some (.error info) ∧ info.inputLength = ys.length ∧
      execAll (decCall ys) s =
        .next { s with
          dec := { State.reset.dec with
                   status := (match info.kind with
                     | .missingLength => 1#2
                     | .missingValue => 2#2)
                   err := { escapeOffset := info.escapeOffset, inputLength := info.inputLength } }
          events := s.events ++ [.error .dec info] })

/-- R89: the closed form of `encode`. -/
def Obligations.EncodeHasItsClosedForm : Prop :=
  ∀ (config : Config) (xs : List Byte), config.outCapacity = none →
    encodeBytes config xs = some (encodeClosedForm xs)

/-- R92 (a), R113 (a): decoding what the encoder gives returns its input, for every byte list and under either
ZERO_LENGTH_POLICY. -/
def Obligations.DecodeOfEncodeIsTheInput : Prop :=
  ∀ (config : Config) (xs : List Byte), config.outCapacity = none →
    ∃ ys, encodeBytes config xs = some ys ∧ decodeBytes config ys = some (.ok xs)

/-- R66: the encoder emits only canonical tokens, and no incomplete tail. It stands for R92 (b), no bare zero, as the model
reads it (log 17): (b) says that every 0x00 is the first byte of a RUN token, which the `00 01 00` of R82 and R87 is not; here
each 0x00 is a marker or the value of RUN 1 0x00. -/
def Obligations.EncodeEmitsOnlyCanonicalTokens : Prop :=
  ∀ (config : Config) (xs ys : List Byte), config.outCapacity = none → encodeBytes config xs = some ys →
    (parseStream ys).2 = [] ∧ ∀ i ∈ (parseStream ys).1, CanonicalToken i

/-- R50, R92 (c): the encoder's output is at most three times its input, exactly three times when every byte is 0x00. -/
def Obligations.EncodeAtMostTriples : Prop :=
  ∀ (config : Config) (xs ys : List Byte), config.outCapacity = none → encodeBytes config xs = some ys →
    ys.length ≤ 3 * xs.length ∧ (ys.length = 3 * xs.length ↔ ∀ x ∈ xs, x = 0x00#8)

/-- R50, R113 (d): a successful decoder call outputs at most 85 bytes a byte of input; tokens `00 FF v` reach the bound. -/
def Obligations.DecodeAtMostEightyFiveTimes : Prop :=
  ∀ (config : Config), config.outCapacity = none →
    (∀ ys xs, decodeBytes config ys = some (.ok xs) → xs.length ≤ 85 * ys.length) ∧
    (∀ n v, decodeBytes config (List.replicate n [0x00#8, 0xFF#8, v]).flatten =
      some (.ok (List.replicate (255 * n) v)))

/-- R60, R109, R113 (b) under EmitNone (the statement names the policy, R11): `decode` expands the stream's tokens, and fails
exactly on an incomplete tail, with the offsets of R121. -/
def Obligations.DecodeExpandsTheTokens : Prop :=
  ∀ (config : Config) (ys : List Byte), config.outCapacity = none → config.zeroLengthPolicy = .emitNone →
    decodeBytes config ys = some
      (match (parseStream ys).2 with
       | [] => .ok ((parseStream ys).1.map tokenExpansion).flatten
       | [_] => .error { kind := .missingLength, escapeOffset := ys.length - 1, inputLength := ys.length }
       | _ => .error { kind := .missingValue, escapeOffset := ys.length - 2, inputLength := ys.length })

/-- R113 (e): `decode` is a homomorphism on complete streams, under either policy. -/
def Obligations.DecodeJoinsCompleteStreams : Prop :=
  ∀ (config : Config) (ys ys' xs xs' : List Byte), config.outCapacity = none →
    decodeBytes config ys = some (.ok xs) → decodeBytes config ys' = some (.ok xs') →
    decodeBytes config (ys ++ ys') = some (.ok (xs ++ xs'))

/-! ## Runs -/

/-- R41, R46, R60: a stream presented to the decoder, taken token by token (log 6), ends where its bytes pushed one by one
end, under every capacity and either policy, a stall included. The steps left over when the stream is taken are idle (log 3). -/
def Obligations.AStreamRunsAsItsPushes : Prop :=
  ∀ (s : State) (b : Byte) (more : List Byte), s.pending = [.stream b more] →
    Sys2Proof.core.run (more.length + 1) s = execAll ((b :: more).map .decPush) { s with pending := [] }

/-- R46, R68, R89: the commands of ENC.CALL, issued on the encoder's port (log 2), run to the Result that carries `encode` of
their bytes, whatever was issued after them. IssuedDecoderCallRunsToItsEvent is the decoder's. -/
def Obligations.IssuedEncoderCallRunsToItsResult : Prop :=
  ∀ (s : State) (xs : List Byte) (rest : List Request), s.config.outCapacity = none → s.enc = State.reset.enc →
    s.pending = xs.map (fun b => .command .enc (pushWord b)) ++ .command .enc (endWord 0#8) :: rest →
    ∃ ys, encodeBytes s.config xs = some ys ∧
      SafeRun (xs.length + 1) s { s with pending := rest, events := s.events ++ [.result .enc ys] }

/-- R49, R58, R148: with an unbounded buffer and no reserved word issued, every request the host has issued (log 2) is taken: a
run of as many steps as there are commands, stream bytes and resets stops nowhere and leaves nothing waiting. The step count
takes a byte a step; where a token is taken as one step (log 6), the steps left over are idle (log 3). -/
def Obligations.EveryIssuedRequestIsTaken : Prop :=
  ∀ s : State, s.config.outCapacity = none → s.NoReservedIssued →
    ∃ t, SafeRun (requestsSize s.pending) s t ∧ t.pending = []

/-- R46, R68, R109, R121: the commands of DEC.CALL, issued on the decoder's port (log 2), run to the one event that carries the
outcome of `decode` of their bytes, which DEC_STATUS and DEC_ERR take, whatever was issued after them. Presented as stream bytes
before END, they run to the same state, in as many steps or fewer (a token as one step: log 6). -/
def Obligations.IssuedDecoderCallRunsToItsEvent : Prop :=
  ∀ (s : State) (ys : List Byte) (rest : List Request), s.config.outCapacity = none →
    s.dec = { State.reset.dec with status := s.dec.status, err := s.dec.err } →
    ∃ t,
      ((∃ xs, decodeBytes s.config ys = some (.ok xs) ∧
          t = { s with dec := State.reset.dec, pending := rest, events := s.events ++ [.result .dec xs] }) ∨
        ∃ info, decodeBytes s.config ys = some (.error info) ∧
          t = { s with
            dec := { State.reset.dec with
                     status := (match info.kind with
                       | .missingLength => 1#2
                       | .missingValue => 2#2)
                     err := { escapeOffset := info.escapeOffset, inputLength := info.inputLength } }
            pending := rest
            events := s.events ++ [.error .dec info] }) ∧
      (s.pending = ys.map (fun b => .command .dec (pushWord b)) ++ .command .dec (endWord 0#8) :: rest →
        SafeRun (ys.length + 1) s t) ∧
      (s.pending = streamRequest ys ++ .command .dec (endWord 0#8) :: rest →
        ∃ k, k ≤ ys.length + 1 ∧ SafeRun k s t)
end

