-- ==== Sys2Proof/Laws/State.lean ====
section
/-! SUPPORT. One lemma per field of State and update of Machine/Ops.lean, so that no proof unfolds a record update. -/

namespace Sys2Proof.Machine

variable (s : State)

@[simp] theorem State.appendOut_enc_config (bs : List Byte) : (State.appendOut .enc bs s).config = s.config := rfl
@[simp] theorem State.appendOut_enc_enc (bs : List Byte) : (State.appendOut .enc bs s).enc = { s.enc with out := s.enc.out ++ bs } := rfl
@[simp] theorem State.appendOut_enc_dec (bs : List Byte) : (State.appendOut .enc bs s).dec = s.dec := rfl
@[simp] theorem State.appendOut_enc_events (bs : List Byte) : (State.appendOut .enc bs s).events = s.events := rfl
@[simp] theorem State.appendOut_enc_pending (bs : List Byte) : (State.appendOut .enc bs s).pending = s.pending := rfl

@[simp] theorem State.appendOut_dec_config (bs : List Byte) : (State.appendOut .dec bs s).config = s.config := rfl
@[simp] theorem State.appendOut_dec_enc (bs : List Byte) : (State.appendOut .dec bs s).enc = s.enc := rfl
@[simp] theorem State.appendOut_dec_dec (bs : List Byte) : (State.appendOut .dec bs s).dec = { s.dec with out := s.dec.out ++ bs } := rfl
@[simp] theorem State.appendOut_dec_events (bs : List Byte) : (State.appendOut .dec bs s).events = s.events := rfl
@[simp] theorem State.appendOut_dec_pending (bs : List Byte) : (State.appendOut .dec bs s).pending = s.pending := rfl

@[simp] theorem State.setRun_config (v c : Byte) : (State.setRun v c s).config = s.config := rfl
@[simp] theorem State.setRun_enc (v c : Byte) : (State.setRun v c s).enc = { s.enc with value := v, count := c } := rfl
@[simp] theorem State.setRun_dec (v c : Byte) : (State.setRun v c s).dec = s.dec := rfl
@[simp] theorem State.setRun_events (v c : Byte) : (State.setRun v c s).events = s.events := rfl
@[simp] theorem State.setRun_pending (v c : Byte) : (State.setRun v c s).pending = s.pending := rfl

@[simp] theorem State.clearRun_config : (State.clearRun s).config = s.config := rfl
@[simp] theorem State.clearRun_enc : (State.clearRun s).enc = { s.enc with value := 0#8, count := 0#8 } := rfl
@[simp] theorem State.clearRun_dec : (State.clearRun s).dec = s.dec := rfl
@[simp] theorem State.clearRun_events : (State.clearRun s).events = s.events := rfl
@[simp] theorem State.clearRun_pending : (State.clearRun s).pending = s.pending := rfl

@[simp] theorem State.setPhase_config (p : DecPhase) (l : Byte) : (State.setPhase p l s).config = s.config := rfl
@[simp] theorem State.setPhase_enc (p : DecPhase) (l : Byte) : (State.setPhase p l s).enc = s.enc := rfl
@[simp] theorem State.setPhase_dec (p : DecPhase) (l : Byte) : (State.setPhase p l s).dec = { s.dec with state := p, len := l } := rfl
@[simp] theorem State.setPhase_events (p : DecPhase) (l : Byte) : (State.setPhase p l s).events = s.events := rfl
@[simp] theorem State.setPhase_pending (p : DecPhase) (l : Byte) : (State.setPhase p l s).pending = s.pending := rfl

@[simp] theorem State.setEscPos_config (p : Nat) : (State.setEscPos p s).config = s.config := rfl
@[simp] theorem State.setEscPos_enc (p : Nat) : (State.setEscPos p s).enc = s.enc := rfl
@[simp] theorem State.setEscPos_dec (p : Nat) : (State.setEscPos p s).dec = { s.dec with escPos := p } := rfl
@[simp] theorem State.setEscPos_events (p : Nat) : (State.setEscPos p s).events = s.events := rfl
@[simp] theorem State.setEscPos_pending (p : Nat) : (State.setEscPos p s).pending = s.pending := rfl

@[simp] theorem State.advancePos_config : (State.advancePos s).config = s.config := rfl
@[simp] theorem State.advancePos_enc : (State.advancePos s).enc = s.enc := rfl
@[simp] theorem State.advancePos_dec : (State.advancePos s).dec = { s.dec with pos := s.dec.pos + 1 } := rfl
@[simp] theorem State.advancePos_events : (State.advancePos s).events = s.events := rfl
@[simp] theorem State.advancePos_pending : (State.advancePos s).pending = s.pending := rfl

@[simp] theorem State.setStatus_config (c : BitVec 2) (e : DecErr) : (State.setStatus c e s).config = s.config := rfl
@[simp] theorem State.setStatus_enc (c : BitVec 2) (e : DecErr) : (State.setStatus c e s).enc = s.enc := rfl
@[simp] theorem State.setStatus_dec (c : BitVec 2) (e : DecErr) : (State.setStatus c e s).dec = { s.dec with status := c, err := e } := rfl
@[simp] theorem State.setStatus_events (c : BitVec 2) (e : DecErr) : (State.setStatus c e s).events = s.events := rfl
@[simp] theorem State.setStatus_pending (c : BitVec 2) (e : DecErr) : (State.setStatus c e s).pending = s.pending := rfl

@[simp] theorem State.report_config (ev : Event) : (State.report ev s).config = s.config := rfl
@[simp] theorem State.report_enc (ev : Event) : (State.report ev s).enc = s.enc := rfl
@[simp] theorem State.report_dec (ev : Event) : (State.report ev s).dec = s.dec := rfl
@[simp] theorem State.report_events (ev : Event) : (State.report ev s).events = s.events ++ [ev] := rfl
@[simp] theorem State.report_pending (ev : Event) : (State.report ev s).pending = s.pending := rfl

@[simp] theorem State.startEncCall_config : (State.startEncCall s).config = s.config := rfl
@[simp] theorem State.startEncCall_enc : (State.startEncCall s).enc = EncState.start := rfl
@[simp] theorem State.startEncCall_dec : (State.startEncCall s).dec = s.dec := rfl
@[simp] theorem State.startEncCall_events : (State.startEncCall s).events = s.events := rfl
@[simp] theorem State.startEncCall_pending : (State.startEncCall s).pending = s.pending := rfl

@[simp] theorem State.startDecCall_config : (State.startDecCall s).config = s.config := rfl
@[simp] theorem State.startDecCall_enc : (State.startDecCall s).enc = s.enc := rfl
@[simp] theorem State.startDecCall_dec : (State.startDecCall s).dec = { DecState.reset with status := s.dec.status, err := s.dec.err } := rfl
@[simp] theorem State.startDecCall_events : (State.startDecCall s).events = s.events := rfl
@[simp] theorem State.startDecCall_pending : (State.startDecCall s).pending = s.pending := rfl

@[simp] theorem State.assertReset_config : (State.assertReset s).config = s.config := rfl
@[simp] theorem State.assertReset_enc : (State.assertReset s).enc = EncState.start := rfl
@[simp] theorem State.assertReset_dec : (State.assertReset s).dec = DecState.reset := rfl
@[simp] theorem State.assertReset_events : (State.assertReset s).events = s.events := rfl
@[simp] theorem State.assertReset_pending : (State.assertReset s).pending = s.pending := rfl

@[simp] theorem State.hostIssue_config (r : Request) : (State.hostIssue r s).config = s.config := rfl
@[simp] theorem State.hostIssue_enc (r : Request) : (State.hostIssue r s).enc = s.enc := rfl
@[simp] theorem State.hostIssue_dec (r : Request) : (State.hostIssue r s).dec = s.dec := rfl
@[simp] theorem State.hostIssue_events (r : Request) : (State.hostIssue r s).events = s.events := rfl
@[simp] theorem State.hostIssue_pending (r : Request) : (State.hostIssue r s).pending = s.pending ++ [r] := rfl

/-! Updates of the engines' structures read field by field. -/

@[simp] theorem EncState.start_value : EncState.start.value = 0#8 := rfl
@[simp] theorem EncState.start_count : EncState.start.count = 0#8 := rfl
@[simp] theorem EncState.start_out : EncState.start.out = [] := rfl
@[simp] theorem DecState.reset_state : DecState.reset.state = .A := rfl
@[simp] theorem DecState.reset_len : DecState.reset.len = 0#8 := rfl
@[simp] theorem DecState.reset_pos : DecState.reset.pos = 0 := rfl
@[simp] theorem DecState.reset_escPos : DecState.reset.escPos = 0 := rfl
@[simp] theorem DecState.reset_out : DecState.reset.out = [] := rfl
@[simp] theorem DecState.reset_status : DecState.reset.status = 0#2 := rfl
@[simp] theorem DecState.reset_err : DecState.reset.err = { escapeOffset := 0, inputLength := 0 } := rfl
@[simp] theorem State.reset_enc : State.reset.enc = EncState.start := rfl
@[simp] theorem State.reset_dec : State.reset.dec = DecState.reset := rfl
@[simp] theorem State.reset_events : State.reset.events = [] := rfl
@[simp] theorem State.reset_pending : State.reset.pending = [] := rfl
@[simp] theorem State.reset_config : State.reset.config = Config.specDefault := rfl
@[simp] theorem State.outOf_enc : s.outOf .enc = s.enc.out := rfl
@[simp] theorem State.outOf_dec : s.outOf .dec = s.dec.out := rfl

end Sys2Proof.Machine
end

