-- ==== Sys2Proof/Laws/Ops.lean ====
section
/-! SUPPORT. What the shared operations can do: the capacity check, Emit, the flush rule and the exception. -/

namespace Sys2Proof.Machine

/-! ## The capacity check -/

@[simp] theorem fits_none (out bs : List Byte) : fits none out bs = true := rfl

theorem fits_some (cap : Nat) (out bs : List Byte) :
    fits (some cap) out bs = true ↔ bs = [] ∨ out.length + bs.length ≤ cap := by
  simp [fits]

@[simp] theorem fits_nil (capacity : Option Nat) (out : List Byte) : fits capacity out [] = true := by
  cases capacity <;> simp [fits]

theorem fits_of_hasRoom {e : Engine} {bs : List Byte} {n : Nat} {s : State} (h : s.HasRoom e n) (hn : bs.length = n) :
    fits s.config.outCapacity (s.outOf e) bs = true := by
  cases hc : s.config.outCapacity with
  | none => rfl
  | some cap => exact (fits_some ..).2 (.inr (hn ▸ h cap hc))

/-- Bytes that fit leave the buffer within any capacity it was within before. -/
theorem length_append_le_of_fits {capacity : Option Nat} {out bs : List Byte} (h : fits capacity out bs = true)
    (ho : ∀ cap, capacity = some cap → out.length ≤ cap) :
    ∀ cap, capacity = some cap → (out ++ bs).length ≤ cap := by
  rintro cap rfl
  rcases (fits_some ..).1 h with rfl | h
  · simpa using ho cap rfl
  · simpa using h

/-! ## Emit -/

/-- Emit with the step's other writes has two outcomes: everything, or a stall. -/
theorem emitThen_cases (e : Engine) (bs : List Byte) (k : State → State) (s : State) :
    (fits s.config.outCapacity (s.outOf e) bs = true ∧ emitThen e bs k s = .next (k (s.appendOut e bs))) ∨
    (fits s.config.outCapacity (s.outOf e) bs = false ∧ emitThen e bs k s = .fault (.capacityStall e)) := by
  unfold emitThen
  cases fits s.config.outCapacity (s.outOf e) bs <;> simp

theorem emitThen_of_fits {e : Engine} {bs : List Byte} {s : State} (k : State → State)
    (h : fits s.config.outCapacity (s.outOf e) bs = true) :
    emitThen e bs k s = .next (k (s.appendOut e bs)) := by
  simp [emitThen, h]

theorem emitThen_next {e : Engine} {bs : List Byte} {k : State → State} {s t : State} (h : emitThen e bs k s = .next t) :
    fits s.config.outCapacity (s.outOf e) bs = true ∧ t = k (s.appendOut e bs) := by
  rcases emitThen_cases e bs k s with ⟨hf, he⟩ | ⟨-, he⟩ <;> rw [he] at h <;> cases h
  exact ⟨hf, rfl⟩

theorem emitThen_fault {e : Engine} {bs : List Byte} {k : State → State} {s : State} {f : Fault}
    (h : emitThen e bs k s = .fault f) :
    fits s.config.outCapacity (s.outOf e) bs = false ∧ f = .capacityStall e := by
  rcases emitThen_cases e bs k s with ⟨-, he⟩ | ⟨hf, he⟩ <;> rw [he] at h <;> cases h
  exact ⟨hf, rfl⟩

@[simp] theorem emitThen_ne_refused (e : Engine) (bs : List Byte) (k : State → State) (s : State) (r : Refusal) :
    emitThen e bs k s ≠ .refused r := by
  rcases emitThen_cases e bs k s with ⟨-, he⟩ | ⟨-, he⟩ <;> simp [he]

/-- A step that emits nothing is never stuck. -/
@[simp] theorem emitThen_enc_nil (k : State → State) (s : State) : emitThen .enc [] k s = .next (k s) := by
  simp [emitThen, State.appendOut]

@[simp] theorem emitThen_dec_nil (k : State → State) (s : State) : emitThen .dec [] k s = .next (k s) := by
  simp [emitThen, State.appendOut]

theorem emitThen_unbounded {s : State} (e : Engine) (bs : List Byte) (k : State → State)
    (h : s.config.outCapacity = none) : emitThen e bs k s = .next (k (s.appendOut e bs)) :=
  emitThen_of_fits k (by rw [h]; rfl)

/-! ## Operands -/

@[simp] theorem zeroEscape_length : zeroEscape.length = 3 := rfl

@[simp] theorem runBytes_length (v len : Byte) : (runBytes v len).length = len.toNat := List.length_replicate ..

@[simp] theorem runBytes_zero (v : Byte) : runBytes v 0#8 = [] := rfl

@[simp] theorem flush_zero (v : Byte) : flush v 0#8 = [] := rfl
@[simp] theorem flush_one (v : Byte) : flush v 1#8 = [v] := rfl
@[simp] theorem flush_two (v : Byte) : flush v 2#8 = [v, v] := rfl

/-- A run of 3 or more is an escaped-run. -/
theorem flush_of_three_le (v : Byte) {c : Byte} (h : 3 ≤ c.toNat) : flush v c = [ESC, c, v] := by
  have h0 : c ≠ 0#8 := by rintro rfl; simp at h
  have h1 : c ≠ 1#8 := by rintro rfl; simp at h
  have h2 : c ≠ 2#8 := by rintro rfl; simp at h
  rw [flush, if_neg h0, if_neg h1, if_neg h2]

/-- The four forms of the flush rule, by the count as a number. -/
theorem flush_cases (v c : Byte) :
    (c = 0#8 ∧ flush v c = []) ∨ (c = 1#8 ∧ flush v c = [v]) ∨ (c = 2#8 ∧ flush v c = [v, v]) ∨
    (3 ≤ c.toNat ∧ flush v c = [ESC, c, v]) := by
  by_cases h0 : c = 0#8
  · exact .inl ⟨h0, by rw [h0]; rfl⟩
  by_cases h1 : c = 1#8
  · exact .inr (.inl ⟨h1, by rw [h1]; rfl⟩)
  by_cases h2 : c = 2#8
  · exact .inr (.inr (.inl ⟨h2, by rw [h2]; rfl⟩))
  · have h : 3 ≤ c.toNat := by bv_omega
    exact .inr (.inr (.inr ⟨h, flush_of_three_le v h⟩))

theorem flush_length_le (v c : Byte) : (flush v c).length ≤ 3 := by
  rcases flush_cases v c with ⟨-, h⟩ | ⟨-, h⟩ | ⟨-, h⟩ | ⟨-, h⟩ <;> simp [h]

end Sys2Proof.Machine
end

