-- ==== Sys2Proof/Laws/Exec.lean ====
section
/-! SUPPORT. What each meaning can do, once: every push is one Emit with one write of its engine's fields. -/

namespace Sys2Proof.Machine

/-! ## exec is its meanings -/

@[simp] theorem exec_encPush (b : Byte) (s : State) : exec (.encPush b) s = execEncPush b s := rfl
@[simp] theorem exec_encEnd (s : State) : exec .encEnd s = execEncEnd s := rfl
@[simp] theorem exec_decPush (b : Byte) (s : State) : exec (.decPush b) s = execDecPush b s := rfl
@[simp] theorem exec_decEnd (s : State) : exec .decEnd s = execDecEnd s := rfl
@[simp] theorem exec_reservedCommand (p : Engine) (d : Byte) (s : State) :
    exec (.reservedCommand p d) s = .refused (.reservedCommand p d) := rfl
@[simp] theorem exec_lit (b : Byte) (s : State) : exec (.lit b) s = presentBytes [b] s := rfl
@[simp] theorem exec_run (l v : Byte) (s : State) : exec (.run l v) s = presentBytes [ESC, l, v] s := rfl
@[simp] theorem exec_run0 (v : Byte) (s : State) : exec (.run0 v) s = presentBytes [ESC, 0#8, v] s := rfl

/-! ## Encoder -/

/-- The arms of ENC.PUSH (R82 to R87): the condition, the bytes emitted, the run left in progress. -/
inductive EncArm (e : EncState) (b : Byte) : (bs : List Byte) → (value count : Byte) → Prop where
  | zeroIdle (hc : e.count = 0#8) (hb : b = ESC) : EncArm e b zeroEscape e.value e.count
  | start (hc : e.count = 0#8) (hb : b ≠ ESC) : EncArm e b [] b 1#8
  | extend (hc : e.count ≠ 0#8) (hb : b = e.value) (hlt : e.count.toNat < 254) : EncArm e b [] e.value (e.count + 1#8)
  | full (hc : e.count ≠ 0#8) (hb : b = e.value) (hge : 254 ≤ e.count.toNat) : EncArm e b [ESC, 255#8, e.value] 0#8 0#8
  | switch (hc : e.count ≠ 0#8) (hv : b ≠ e.value) (hb : b ≠ ESC) : EncArm e b (flush e.value e.count) b 1#8
  | switchZero (hc : e.count ≠ 0#8) (hv : b ≠ e.value) (hb : b = ESC) :
      EncArm e b (flush e.value e.count ++ zeroEscape) 0#8 0#8

/-- ENC.PUSH is one Emit and one write of the run, by the arm that applies. -/
theorem execEncPush_arm (b : Byte) (s : State) :
    ∃ bs v c, EncArm s.enc b bs v c ∧ execEncPush b s = emitThen .enc bs (·.setRun v c) s := by
  by_cases hc : s.enc.count = 0#8
  · by_cases hb : b = ESC
    · exact ⟨_, _, _, .zeroIdle hc hb, by simp [execEncPush, hc, hb, armZeroIdle, emitThen, State.setRun, State.appendOut]⟩
    · exact ⟨_, _, _, .start hc hb, by rw [execEncPush, if_pos hc, if_neg hb, armStart]⟩
  · by_cases hv : b = s.enc.value
    · by_cases hlt : s.enc.count < 254#8
      · refine ⟨_, _, _, .extend hc hv (by bv_omega), ?_⟩
        rw [execEncPush, if_neg hc, if_pos hv, if_pos hlt, armExtend, emitThen_enc_nil, emitThen_enc_nil]
      · refine ⟨_, _, _, .full hc hv (by bv_omega), ?_⟩
        rw [execEncPush, if_neg hc, if_pos hv, if_neg hlt]
        rfl
    · by_cases hb : b = ESC
      · refine ⟨_, _, _, .switchZero hc hv hb, ?_⟩
        rw [execEncPush, if_neg hc, if_neg hv, if_neg (not_not_intro hb)]
        rfl
      · exact ⟨_, _, _, .switch hc hv hb, by rw [execEncPush, if_neg hc, if_neg hv, if_pos hb, armSwitch]⟩

/-- ENC.PUSH, if it has a next state: an arm applies, its bytes fit, and only the encoder's fields are written. -/
theorem execEncPush_next {b : Byte} {s t : State} (h : execEncPush b s = .next t) :
    ∃ bs v c, EncArm s.enc b bs v c ∧ fits s.config.outCapacity s.enc.out bs = true ∧
      t = { s with enc := { value := v, count := c, out := s.enc.out ++ bs } } := by
  obtain ⟨bs, v, c, arm, he⟩ := execEncPush_arm b s
  obtain ⟨hf, rfl⟩ := emitThen_next (he.symm.trans h)
  exact ⟨bs, v, c, arm, hf, rfl⟩

/-- ENC.END, if it has a next state: the flush fits, the Result is reported and the encoder is at the start of a call. -/
theorem execEncEnd_next {s t : State} (h : execEncEnd s = .next t) :
    fits s.config.outCapacity s.enc.out (flush s.enc.value s.enc.count) = true ∧
      t = { s with enc := EncState.start
                   events := s.events ++ [.result .enc (s.enc.out ++ flush s.enc.value s.enc.count)] } := by
  obtain ⟨hf, rfl⟩ := emitThen_next h
  exact ⟨hf, rfl⟩

/-! ## Decoder -/

/-- The arms of DEC.PUSH (R101 to R105): the condition, the bytes emitted, the state, length and marker offset left. -/
inductive DecArm (policy : ZeroLengthPolicy) (d : DecState) (b : Byte) :
    (bs : List Byte) → (state : DecPhase) → (len : Byte) → (escPos : Nat) → Prop where
  | literal (hs : d.state = .A) (hb : b ≠ ESC) : DecArm policy d b [b] .A d.len d.escPos
  | escape (hs : d.state = .A) (hb : b = ESC) : DecArm policy d b [] .B d.len d.pos
  | length (hs : d.state = .B) (hb : b ≠ ESC) : DecArm policy d b [] .C b d.escPos
  | zeroLengthNone (hs : d.state = .B) (hb : b = ESC) (hp : policy = .emitNone) : DecArm policy d b [] .C 0#8 d.escPos
  | zeroLengthReread (hs : d.state = .B) (hb : b = ESC) (hp : policy = .rereadLength) :
      DecArm policy d b [] .B d.len d.escPos
  | value (hs : d.state = .C) : DecArm policy d b (runBytes b d.len) .A 0#8 0

/-- The one write of an arm of DEC.PUSH. -/
def decWrite (state : DecPhase) (len : Byte) (escPos : Nat) (t : State) : State :=
  ((t.setPhase state len).setEscPos escPos).advancePos

/-- DEC.PUSH is one Emit and one write of the decoder's fields, by the arm that applies. -/
theorem execDecPush_arm (b : Byte) (s : State) :
    ∃ bs st l p, DecArm s.config.zeroLengthPolicy s.dec b bs st l p ∧
      execDecPush b s = emitThen .dec bs (decWrite st l p) s := by
  cases hs : s.dec.state with
  | A =>
    by_cases hb : b = ESC
    · refine ⟨_, _, _, _, .escape hs hb, ?_⟩
      rw [emitThen_dec_nil]
      simp [execDecPush, hs, hb, armEscape, decWrite]
    · refine ⟨_, _, _, _, .literal hs hb, ?_⟩
      simp [execDecPush, hs, hb, armLiteral, decWrite, emitThen, State.appendOut, State.advancePos, State.setPhase,
        State.setEscPos]
  | B =>
    by_cases hb : b = ESC
    · cases hp : s.config.zeroLengthPolicy with
      | emitNone =>
        refine ⟨_, _, _, _, .zeroLengthNone hs hb rfl, ?_⟩
        rw [emitThen_dec_nil]
        simp [execDecPush, hs, hb, armZeroLength, hp, decWrite, State.setPhase, State.setEscPos, State.advancePos]
      | rereadLength =>
        refine ⟨_, _, _, _, .zeroLengthReread hs hb rfl, ?_⟩
        rw [emitThen_dec_nil]
        simp [execDecPush, hs, hb, armZeroLength, hp, decWrite, State.setPhase, State.setEscPos, State.advancePos]
    · refine ⟨_, _, _, _, .length hs hb, ?_⟩
      rw [emitThen_dec_nil]
      simp [execDecPush, hs, hb, armLength, decWrite, State.setPhase, State.setEscPos, State.advancePos]
  | C => exact ⟨_, _, _, _, .value hs, by simp only [execDecPush, hs]; rfl⟩

/-- DEC.PUSH, if it has a next state: an arm applies, its bytes fit, and only the decoder's call fields are written. -/
theorem execDecPush_next {b : Byte} {s t : State} (h : execDecPush b s = .next t) :
    ∃ bs st l p, DecArm s.config.zeroLengthPolicy s.dec b bs st l p ∧
      fits s.config.outCapacity s.dec.out bs = true ∧
      t = { s with dec := { s.dec with state := st, len := l, escPos := p, pos := s.dec.pos + 1,
                                       out := s.dec.out ++ bs } } := by
  obtain ⟨bs, st, l, p, arm, he⟩ := execDecPush_arm b s
  obtain ⟨hf, rfl⟩ := emitThen_next (he.symm.trans h)
  exact ⟨bs, st, l, p, arm, hf, rfl⟩

/-- DEC.END always has a next state, by the state the input ended in. -/
theorem execDecEnd_eq (s : State) :
    execDecEnd s = .next (match s.dec.state with
      | .A => endComplete s
      | .B => raiseMalformed .missingLength s
      | .C => raiseMalformed .missingValue s) := by
  unfold execDecEnd
  cases s.dec.state <;> rfl

/-! ## Bytes in a row -/

@[simp] theorem presentBytes_nil (s : State) : presentBytes [] s = .next s := rfl

theorem presentBytes_cons (b : Byte) (bs : List Byte) (s : State) :
    presentBytes (b :: bs) s = (match execDecPush b s with
      | .next t => presentBytes bs t
      | .fault f => .fault f
      | .refused r => .refused r) := rfl

theorem presentBytes_append (bs cs : List Byte) (s : State) :
    presentBytes (bs ++ cs) s = (match presentBytes bs s with
      | .next t => presentBytes cs t
      | .fault f => .fault f
      | .refused r => .refused r) := by
  induction bs generalizing s with
  | nil => rfl
  | cons b bs ih =>
    rw [List.cons_append, presentBytes_cons, presentBytes_cons]
    cases execDecPush b s with
    | next t => exact ih t
    | fault f => rfl
    | refused r => rfl

/-- What every DEC.PUSH keeps, bytes in a row keep. -/
theorem presentBytes_induct {P : State → State → Prop} (hrefl : ∀ r, P r r)
    (htrans : ∀ {s t u}, P s t → P t u → P s u) (hpush : ∀ {b s t}, execDecPush b s = .next t → P s t) {bs : List Byte}
    {s t : State} (h : presentBytes bs s = .next t) : P s t := by
  induction bs generalizing s with
  | nil => cases h; exact hrefl _
  | cons b bs ih =>
    rw [presentBytes_cons] at h
    cases hp : execDecPush b s with
    | next u => rw [hp] at h; exact htrans (hpush hp) (ih h)
    | fault f => rw [hp] at h; cases h
    | refused r => rw [hp] at h; cases h

/-- Bytes presented write the decoder's call fields only: they keep the rest, report nothing and extend the buffer. -/
theorem presentBytes_keeps {bs : List Byte} {s t : State} (h : presentBytes bs s = .next t) :
    t.enc = s.enc ∧ t.config = s.config ∧ t.pending = s.pending ∧ t.events = s.events ∧
      t.dec.status = s.dec.status ∧ t.dec.err = s.dec.err ∧ ∃ more, t.dec.out = s.dec.out ++ more := by
  refine presentBytes_induct (P := fun s t => t.enc = s.enc ∧ t.config = s.config ∧ t.pending = s.pending ∧
    t.events = s.events ∧ t.dec.status = s.dec.status ∧ t.dec.err = s.dec.err ∧
    ∃ more, t.dec.out = s.dec.out ++ more) ?_ ?_ ?_ h
  · exact fun r => ⟨rfl, rfl, rfl, rfl, rfl, rfl, [], (List.append_nil _).symm⟩
  · rintro s t u ⟨a, b, c, d, e, f, x, g⟩ ⟨a', b', c', d', e', f', y, g'⟩
    exact ⟨a'.trans a, b'.trans b, c'.trans c, d'.trans d, e'.trans e, f'.trans f, x ++ y,
      by rw [g', g, List.append_assoc]⟩
  · intro b s t h
    obtain ⟨_, _, _, _, -, -, rfl⟩ := execDecPush_next h
    exact ⟨rfl, rfl, rfl, rfl, rfl, rfl, _, rfl⟩

/-- The bytes a decoder instruction presents; none for the others. -/
def presentedBytes : Instr → Option (List Byte)
  | .decPush b => some [b]
  | .lit b => some [b]
  | .run l v => some [ESC, l, v]
  | .run0 v => some [ESC, 0#8, v]
  | _ => none

/-- DEC.PUSH and the tokens are the bytes they present. -/
theorem exec_of_presentedBytes {i : Instr} {bs : List Byte} (h : presentedBytes i = some bs) (s : State) :
    exec i s = presentBytes bs s := by
  cases i <;> cases h
  case decPush b =>
    rw [exec_decPush, presentBytes_cons]
    cases execDecPush b s <;> rfl
  all_goals rfl

/-- No meaning changes the parameters or the requests. -/
theorem exec_keeps {i : Instr} {s t : State} (h : exec i s = .next t) : t.config = s.config ∧ t.pending = s.pending := by
  cases i with
  | encPush b => obtain ⟨_, _, _, -, -, rfl⟩ := execEncPush_next h; exact ⟨rfl, rfl⟩
  | encEnd => obtain ⟨-, rfl⟩ := execEncEnd_next h; exact ⟨rfl, rfl⟩
  | decPush b => obtain ⟨_, _, _, _, -, -, rfl⟩ := execDecPush_next h; exact ⟨rfl, rfl⟩
  | decEnd =>
    rw [exec_decEnd, execDecEnd_eq] at h
    cases h
    cases s.dec.state <;> exact ⟨rfl, rfl⟩
  | reservedCommand p d => cases h
  | lit b => exact ⟨(presentBytes_keeps h).2.1, (presentBytes_keeps h).2.2.1⟩
  | run l v => exact ⟨(presentBytes_keeps h).2.1, (presentBytes_keeps h).2.2.1⟩
  | run0 v => exact ⟨(presentBytes_keeps h).2.1, (presentBytes_keeps h).2.2.1⟩

/-! ## Which stops there are -/

theorem execEncPush_ne_refused (b : Byte) (s : State) (r : Refusal) : execEncPush b s ≠ .refused r := by
  obtain ⟨bs, v, c, -, h⟩ := execEncPush_arm b s
  simp [h]

theorem execEncEnd_ne_refused (s : State) (r : Refusal) : execEncEnd s ≠ .refused r :=
  emitThen_ne_refused _ _ _ _ r

theorem execDecPush_ne_refused (b : Byte) (s : State) (r : Refusal) : execDecPush b s ≠ .refused r := by
  obtain ⟨bs, st, l, p, -, h⟩ := execDecPush_arm b s
  simp [h]

theorem presentBytes_ne_refused (bs : List Byte) (s : State) (r : Refusal) : presentBytes bs s ≠ .refused r := by
  induction bs generalizing s with
  | nil => simp
  | cons b bs ih =>
    rw [presentBytes_cons]
    cases h : execDecPush b s with
    | next t => exact ih t
    | fault f => simp
    | refused r' => exact absurd h (execDecPush_ne_refused b s r')

/-- A stall names the engine of the instruction, and needs a finite capacity. -/
theorem execEncPush_fault {b : Byte} {s : State} {f : Fault} (h : execEncPush b s = .fault f) :
    f = .capacityStall .enc ∧ s.config.outCapacity ≠ none := by
  obtain ⟨bs, v, c, -, he⟩ := execEncPush_arm b s
  obtain ⟨hf, rfl⟩ := emitThen_fault (he.symm.trans h)
  exact ⟨rfl, by intro hn; simp [hn] at hf⟩

theorem execEncEnd_fault {s : State} {f : Fault} (h : execEncEnd s = .fault f) :
    f = .capacityStall .enc ∧ s.config.outCapacity ≠ none := by
  obtain ⟨hf, rfl⟩ := emitThen_fault h
  exact ⟨rfl, by intro hn; simp [hn] at hf⟩

theorem execDecPush_fault {b : Byte} {s : State} {f : Fault} (h : execDecPush b s = .fault f) :
    f = .capacityStall .dec ∧ s.config.outCapacity ≠ none := by
  obtain ⟨bs, st, l, p, -, he⟩ := execDecPush_arm b s
  obtain ⟨hf, rfl⟩ := emitThen_fault (he.symm.trans h)
  exact ⟨rfl, by intro hn; simp [hn] at hf⟩

theorem execDecPush_config {b : Byte} {s t : State} (h : execDecPush b s = .next t) : t.config = s.config := by
  obtain ⟨_, _, _, _, -, -, rfl⟩ := execDecPush_next h
  rfl

theorem presentBytes_fault {bs : List Byte} {s : State} {f : Fault} (h : presentBytes bs s = .fault f) :
    f = .capacityStall .dec ∧ s.config.outCapacity ≠ none := by
  induction bs generalizing s with
  | nil => cases h
  | cons b bs ih =>
    rw [presentBytes_cons] at h
    cases hp : execDecPush b s with
    | next t => rw [hp] at h; exact ⟨(ih h).1, execDecPush_config hp ▸ (ih h).2⟩
    | fault g => rw [hp] at h; cases h; exact execDecPush_fault hp
    | refused r => rw [hp] at h; cases h

/-- exec is stuck only for the capacity of the instruction's own engine. -/
theorem exec_fault {i : Instr} {s : State} {f : Fault} (h : exec i s = .fault f) :
    f = .capacityStall i.engine ∧ s.config.outCapacity ≠ none := by
  cases i with
  | encPush b => exact execEncPush_fault h
  | encEnd => exact execEncEnd_fault h
  | decPush b => exact execDecPush_fault h
  | decEnd => rw [exec_decEnd, execDecEnd_eq] at h; cases h
  | reservedCommand p d => cases h
  | lit b => exact presentBytes_fault h
  | run l v => exact presentBytes_fault h
  | run0 v => exact presentBytes_fault h

/-- exec refuses only the reserved commands. -/
theorem exec_refused {i : Instr} {s : State} {r : Refusal} (h : exec i s = .refused r) :
    ∃ p d, i = .reservedCommand p d ∧ r = .reservedCommand p d := by
  cases i with
  | encPush b => exact absurd h (execEncPush_ne_refused _ _ _)
  | encEnd => exact absurd h (execEncEnd_ne_refused _ _)
  | decPush b => exact absurd h (execDecPush_ne_refused _ _ _)
  | decEnd => rw [exec_decEnd, execDecEnd_eq] at h; cases h
  | reservedCommand p d => cases h; exact ⟨p, d, rfl, rfl⟩
  | lit b => exact absurd h (presentBytes_ne_refused _ _ _)
  | run l v => exact absurd h (presentBytes_ne_refused _ _ _)
  | run0 v => exact absurd h (presentBytes_ne_refused _ _ _)

/-! ## The requests play no part in a meaning -/

/-- An outcome with the pending requests replaced. -/
def withPending (p : List Request) (o : Host.Outcome State Fault Refusal) : Host.Outcome State Fault Refusal :=
  match o with
  | .next t => .next { t with pending := p }
  | .fault f => .fault f
  | .refused r => .refused r

theorem emitThen_pending (e : Engine) (bs : List Byte) (k : State → State) (p : List Request) (s : State)
    (hk : ∀ t : State, k { t with pending := p } = { k t with pending := p }) :
    emitThen e bs k { s with pending := p } = withPending p (emitThen e bs k s) := by
  have ho : State.outOf e { s with pending := p } = s.outOf e := by cases e <;> rfl
  have ha : State.appendOut e bs { s with pending := p } = { s.appendOut e bs with pending := p } := by cases e <;> rfl
  unfold emitThen
  rw [ho, ha, hk]
  cases fits s.config.outCapacity (s.outOf e) bs <;> rfl

theorem execEncPush_pending (b : Byte) (p : List Request) (s : State) :
    execEncPush b { s with pending := p } = withPending p (execEncPush b s) := by
  unfold execEncPush
  dsimp only
  repeat' split
  all_goals exact emitThen_pending .enc _ _ p s (fun _ => rfl)

theorem execEncEnd_pending (p : List Request) (s : State) :
    execEncEnd { s with pending := p } = withPending p (execEncEnd s) :=
  emitThen_pending .enc _ _ p s (fun _ => rfl)

theorem execDecPush_pending (b : Byte) (p : List Request) (s : State) :
    execDecPush b { s with pending := p } = withPending p (execDecPush b s) := by
  unfold execDecPush armZeroLength
  dsimp only
  repeat' split
  all_goals exact emitThen_pending .dec _ _ p s (fun _ => rfl)

theorem presentBytes_pending (bs : List Byte) (p : List Request) (s : State) :
    presentBytes bs { s with pending := p } = withPending p (presentBytes bs s) := by
  induction bs generalizing s with
  | nil => rfl
  | cons b bs ih =>
    rw [presentBytes_cons, presentBytes_cons, execDecPush_pending]
    cases execDecPush b s with
    | next t => exact ih t
    | fault f => rfl
    | refused r => rfl

theorem exec_pending (i : Instr) (p : List Request) (s : State) :
    exec i { s with pending := p } = withPending p (exec i s) := by
  cases i with
  | encPush b => exact execEncPush_pending b p s
  | encEnd => exact execEncEnd_pending p s
  | decPush b => exact execDecPush_pending b p s
  | decEnd =>
    rw [exec_decEnd, exec_decEnd, execDecEnd_eq, execDecEnd_eq]
    cases s.dec.state <;> rfl
  | reservedCommand q d => rfl
  | lit b => exact presentBytes_pending [b] p s
  | run l v => exact presentBytes_pending [ESC, l, v] p s
  | run0 v => exact presentBytes_pending [ESC, 0#8, v] p s

end Sys2Proof.Machine
end

