-- ==== Sys2Proof/Laws/Calls.lean ====
section
/-! SUPPORT. Whole calls with an unbounded buffer as functions of the bytes alone: what is still to be output from a state of
an engine on the rest of its input. -/

namespace Sys2Proof.Machine

theorem execAll_cons (i : Instr) (is : List Instr) (s : State) :
    execAll (i :: is) s = (match exec i s with
      | .next t => execAll is t
      | .fault f => .fault f
      | .refused r => .refused r) := rfl

theorem execAll_cons_of_next {i : Instr} {s t : State} (is : List Instr) (h : exec i s = .next t) :
    execAll (i :: is) s = execAll is t := by
  rw [execAll_cons, h]

theorem execAll_append (is js : List Instr) (s : State) :
    execAll (is ++ js) s = (match execAll is s with
      | .next t => execAll js t
      | .fault f => .fault f
      | .refused r => .refused r) := by
  induction is generalizing s with
  | nil => rfl
  | cons i is ih =>
    rw [List.cons_append, execAll_cons, execAll_cons]
    cases exec i s with
    | next t => exact ih t
    | fault f => rfl
    | refused r => rfl

/-- The requests play no part in instructions executed in a row. -/
theorem execAll_pending (is : List Instr) (p : List Request) (s : State) :
    execAll is { s with pending := p } = withPending p (execAll is s) := by
  induction is generalizing s with
  | nil => rfl
  | cons i is ih =>
    rw [execAll_cons, execAll_cons, exec_pending]
    cases exec i s with
    | next t => exact ih t
    | fault f => rfl
    | refused r => rfl

/-- Pushes in a row are the bytes presented. -/
theorem execAll_decPush (bs : List Byte) (s : State) : execAll (bs.map .decPush) s = presentBytes bs s := by
  induction bs generalizing s with
  | nil => rfl
  | cons b bs ih =>
    rw [List.map_cons, execAll_cons, presentBytes_cons, exec_decPush]
    cases execDecPush b s with
    | next t => exact ih t
    | fault f => rfl
    | refused r => rfl

/-! ## Encoder calls -/

/-- What ENC emits from the run `value`, `count` on the rest `xs` of the input and END. -/
def encTail (value count : Byte) : List Byte → List Byte
  | [] => flush value count
  | b :: xs =>
    if count = 0#8 then
      if b = ESC then zeroEscape ++ encTail value count xs else encTail b 1#8 xs
    else if b = value then
      if count < 254#8 then encTail value (count + 1#8) xs else [ESC, 255#8, value] ++ encTail 0#8 0#8 xs
    else if b ≠ ESC then flush value count ++ encTail b 1#8 xs
    else flush value count ++ (zeroEscape ++ encTail 0#8 0#8 xs)

/-- Every arm of ENC.PUSH emits the first part of what is still to be output. -/
theorem encTail_of_arm {e : EncState} {b : Byte} {bs : List Byte} {v c : Byte} (h : EncArm e b bs v c) (xs : List Byte) :
    encTail e.value e.count (b :: xs) = bs ++ encTail v c xs := by
  have hlt : ∀ x : Byte, x < 254#8 ↔ x.toNat < 254 := fun x => BitVec.lt_def
  cases h with
  | zeroIdle hc hb => simp [encTail, hc, hb]
  | start hc hb => rw [encTail, if_pos hc, if_neg hb, List.nil_append]
  | extend hc hb h => rw [encTail, if_neg hc, if_pos hb, if_pos ((hlt _).2 h), List.nil_append]
  | full hc hb h => rw [encTail, if_neg hc, if_pos hb, if_neg (by rw [hlt]; omega)]
  | switch hc hv hb => rw [encTail, if_neg hc, if_neg hv, if_pos hb]
  | switchZero hc hv hb => rw [encTail, if_neg hc, if_neg hv, if_neg (not_not_intro hb), List.append_assoc]

/-- ENC.PUSH with an unbounded buffer. -/
theorem execEncPush_unbounded (b : Byte) {s : State} (hs : s.config.outCapacity = none) :
    ∃ bs v c, EncArm s.enc b bs v c ∧
      execEncPush b s = .next { s with enc := { value := v, count := c, out := s.enc.out ++ bs } } := by
  obtain ⟨bs, v, c, arm, he⟩ := execEncPush_arm b s
  exact ⟨bs, v, c, arm, by rw [he, emitThen_unbounded _ _ _ hs]; rfl⟩

/-- The rest of an encoder call, from any state of the encoder. -/
theorem execAll_encCall (xs : List Byte) {s : State} (hs : s.config.outCapacity = none) :
    execAll (encCall xs) s = .next { s with
      enc := EncState.start
      events := s.events ++ [.result .enc (s.enc.out ++ encTail s.enc.value s.enc.count xs)] } := by
  induction xs generalizing s with
  | nil =>
    refine execAll_cons_of_next [] ?_
    rw [exec_encEnd, execEncEnd, emitThen_unbounded _ _ _ hs]
    rfl
  | cons b xs ih =>
    obtain ⟨bs, v, c, arm, he⟩ := execEncPush_unbounded b hs
    rw [encCall, List.map_cons, List.cons_append, execAll_cons_of_next (i := .encPush b) _ he, ← encCall,
      encTail_of_arm arm]
    refine (ih (by exact hs)).trans ?_
    simp

/-- R89 by `encTail`. -/
theorem encodeBytes_eq {config : Config} (h : config.outCapacity = none) (xs : List Byte) :
    encodeBytes config xs = some (encTail 0#8 0#8 xs) := by
  rw [encodeBytes, execAll_encCall xs (s := startState config) h]
  simp [lastEvent, startState]

/-! ## Decoder calls -/

/-- What a decoder call comes to from a state, a pending length, a marker offset and a position, on the rest `ys` of the
input and END: the bytes still to be output, or the error. -/
def decTail (policy : ZeroLengthPolicy) (state : DecPhase) (len : Byte) (escPos pos : Nat) :
    List Byte → Except MalformedStream (List Byte)
  | [] =>
    match state with
    | .A => .ok []
    | .B => .error { kind := .missingLength, escapeOffset := escPos, inputLength := pos }
    | .C => .error { kind := .missingValue, escapeOffset := escPos, inputLength := pos }
  | b :: ys =>
    match state with
    | .A =>
      if b ≠ ESC then (decTail policy .A len escPos (pos + 1) ys).map ([b] ++ ·)
      else decTail policy .B len pos (pos + 1) ys
    | .B =>
      if b ≠ ESC then decTail policy .C b escPos (pos + 1) ys
      else
        match policy with
        | .emitNone => decTail policy .C 0#8 escPos (pos + 1) ys
        | .rereadLength => decTail policy .B len escPos (pos + 1) ys
    | .C => (decTail policy .A 0#8 0 (pos + 1) ys).map (runBytes b len ++ ·)

theorem map_nil_append (o : Except MalformedStream (List Byte)) : o.map ([] ++ ·) = o := by
  cases o <;> rfl

/-- Every arm of DEC.PUSH emits the first part of what is still to be output. -/
theorem decTail_of_arm {policy : ZeroLengthPolicy} {d : DecState} {b : Byte} {bs : List Byte} {st : DecPhase} {l : Byte}
    {p : Nat} (h : DecArm policy d b bs st l p) (ys : List Byte) :
    decTail policy d.state d.len d.escPos d.pos (b :: ys) = (decTail policy st l p (d.pos + 1) ys).map (bs ++ ·) := by
  cases h with
  | literal hs hb => rw [hs]; exact if_pos hb
  | escape hs hb => rw [hs, map_nil_append]; exact if_neg (not_not_intro hb)
  | length hs hb => rw [hs, map_nil_append]; exact if_pos hb
  | zeroLengthNone hs hb hp => subst hp; rw [hs, map_nil_append]; exact if_neg (not_not_intro hb)
  | zeroLengthReread hs hb hp => subst hp; rw [hs, map_nil_append]; exact if_neg (not_not_intro hb)
  | value hs => rw [hs]; rfl

/-- DEC.PUSH with an unbounded buffer. -/
theorem execDecPush_unbounded (b : Byte) {s : State} (hs : s.config.outCapacity = none) :
    ∃ bs st l p, DecArm s.config.zeroLengthPolicy s.dec b bs st l p ∧
      execDecPush b s = .next { s with dec := { s.dec with state := st, len := l, escPos := p, pos := s.dec.pos + 1,
                                                           out := s.dec.out ++ bs } } := by
  obtain ⟨bs, st, l, p, arm, he⟩ := execDecPush_arm b s
  exact ⟨bs, st, l, p, arm, by rw [he, emitThen_unbounded _ _ _ hs]; rfl⟩

/-- The status code of an error's kind (R31). -/
theorem malformedKind_code (k : MalformedKind) : k.code = (match k with
    | .missingLength => 1#2
    | .missingValue => 2#2) := by
  cases k <;> rfl

/-- The state after the rest of a decoder call that comes to `o`. -/
def afterDecCall (o : Except MalformedStream (List Byte)) (s : State) : State :=
  match o with
  | .ok bs => { s with dec := DecState.reset, events := s.events ++ [.result .dec (s.dec.out ++ bs)] }
  | .error info => { s with
      dec := { DecState.reset with
               status := info.kind.code
               err := { escapeOffset := info.escapeOffset, inputLength := info.inputLength } }
      events := s.events ++ [.error .dec info] }

/-- The rest of a decoder call, from any state of the decoder. -/
theorem execAll_decCall (ys : List Byte) {s : State} (hs : s.config.outCapacity = none) :
    execAll (decCall ys) s = .next
      (afterDecCall (decTail s.config.zeroLengthPolicy s.dec.state s.dec.len s.dec.escPos s.dec.pos ys) s) := by
  induction ys generalizing s with
  | nil =>
    refine execAll_cons_of_next [] ?_
    rw [exec_decEnd, execDecEnd_eq]
    cases h : s.dec.state <;> simp [decTail, afterDecCall, endComplete, raiseMalformed, malformedInfo] <;> rfl
  | cons b ys ih =>
    obtain ⟨bs, st, l, p, arm, he⟩ := execDecPush_unbounded b hs
    rw [decCall, List.map_cons, List.cons_append, execAll_cons_of_next (i := .decPush b) _ he, ← decCall,
      decTail_of_arm arm]
    refine (ih (by exact hs)).trans ?_
    dsimp only
    cases decTail s.config.zeroLengthPolicy st l p (s.dec.pos + 1) ys with
    | ok bs' => simp [afterDecCall, Except.map]
    | error info => rfl

/-- R109 by `decTail`. -/
theorem decodeBytes_eq {config : Config} (h : config.outCapacity = none) (ys : List Byte) :
    decodeBytes config ys = some (decTail config.zeroLengthPolicy .A 0#8 0 0 ys) := by
  rw [decodeBytes, execAll_decCall ys (s := startState config) h]
  simp only [startState, State.reset_dec, DecState.reset_state, DecState.reset_len, DecState.reset_escPos,
    DecState.reset_pos]
  cases decTail config.zeroLengthPolicy .A 0#8 0 0 ys <;> simp [lastEvent, afterDecCall]

end Sys2Proof.Machine
end

