-- ==== Sys2Proof/Laws/Decode.lean ====
section
/-! SUPPORT. The fields of a command word, and what the token parser answers. -/

namespace Sys2Proof

/-! ## Command words -/

@[simp] theorem cmdEnd_pushWord (b : Byte) : cmdEnd (pushWord b) = false := by
  simp only [cmdEnd, pushWord, BitVec.getLsbD_append]
  simp

@[simp] theorem cmdData_pushWord (b : Byte) : cmdData (pushWord b) = b := by
  apply BitVec.eq_of_getLsbD_eq
  intro i hi
  simp only [cmdData, pushWord, BitVec.getLsbD_extractLsb', BitVec.getLsbD_append]
  simp [hi]

@[simp] theorem cmdEnd_endWord (d : Byte) : cmdEnd (endWord d) = true := by
  simp only [cmdEnd, endWord, BitVec.getLsbD_append]
  simp

@[simp] theorem cmdData_endWord (d : Byte) : cmdData (endWord d) = d := by
  apply BitVec.eq_of_getLsbD_eq
  intro i hi
  simp only [cmdData, endWord, BitVec.getLsbD_extractLsb', BitVec.getLsbD_append]
  simp [hi]

/-- A word is a PUSH word or an END word of its own data. -/
theorem pushWord_of_cmdEnd {c : Cmd9} (h : cmdEnd c = false) : pushWord (cmdData c) = c := by
  apply BitVec.eq_of_getLsbD_eq
  intro i hi
  simp only [pushWord, cmdData, BitVec.getLsbD_append]
  by_cases h8 : i < 8
  · simp [h8]
  · obtain rfl : i = 8 := by omega
    simpa [cmdEnd] using h.symm

theorem endWord_of_cmdEnd {c : Cmd9} (h : cmdEnd c = true) : endWord (cmdData c) = c := by
  apply BitVec.eq_of_getLsbD_eq
  intro i hi
  simp only [endWord, cmdData, BitVec.getLsbD_append]
  by_cases h8 : i < 8
  · simp [h8]
  · obtain rfl : i = 8 := by omega
    simpa [cmdEnd] using h.symm

@[simp] theorem decodeCommand_push_enc (b : Byte) : decodeCommand .enc (pushWord b) = .encPush b := by
  simp [decodeCommand]

@[simp] theorem decodeCommand_push_dec (b : Byte) : decodeCommand .dec (pushWord b) = .decPush b := by
  simp [decodeCommand]

@[simp] theorem decodeCommand_end_enc : decodeCommand .enc (endWord 0#8) = .encEnd := by decide

@[simp] theorem decodeCommand_end_dec : decodeCommand .dec (endWord 0#8) = .decEnd := by decide

theorem decodeCommand_endWord (p : Engine) {d : Byte} (h : d ≠ 0#8) : decodeCommand p (endWord d) = .reservedCommand p d := by
  unfold decodeCommand
  rw [cmdEnd_endWord, cmdData_endWord]
  dsimp only
  rw [if_neg h]

/-- What a command word can be: PUSH, END or reserved. -/
theorem decodeCommand_cases (p : Engine) (c : Cmd9) :
    (∃ b, c = pushWord b ∧ decodeCommand p c = (match p with
      | .enc => .encPush b
      | .dec => .decPush b)) ∨
    (c = endWord 0#8 ∧ decodeCommand p c = (match p with
      | .enc => .encEnd
      | .dec => .decEnd)) ∨
    (∃ d, d ≠ 0#8 ∧ c = endWord d ∧ decodeCommand p c = .reservedCommand p d) := by
  cases hc : cmdEnd c with
  | false =>
    refine .inl ⟨cmdData c, (pushWord_of_cmdEnd hc).symm, ?_⟩
    cases p <;> simp [decodeCommand, hc]
  | true =>
    have he := endWord_of_cmdEnd hc
    by_cases hd : cmdData c = 0#8
    · rw [hd] at he
      refine .inr (.inl ⟨he.symm, ?_⟩)
      subst he
      cases p
      · exact decodeCommand_end_enc
      · exact decodeCommand_end_dec
    · refine .inr (.inr ⟨_, hd, he.symm, ?_⟩)
      have h := decodeCommand_endWord p hd
      rwa [he] at h

/-! ## Tokens -/

/-- The token a stream of three or more bytes opens with, after a marker. -/
theorem parseToken_escape (l v : Byte) (ys : List Byte) :
    parseToken (ESC :: l :: v :: ys) = .ok (if l = 0#8 then .run0 v else .run l v, ys) := by
  simp [parseToken]

theorem parseToken_literal {b : Byte} (h : b ≠ ESC) (ys : List Byte) : parseToken (b :: ys) = .ok (.lit b, ys) := by
  simp [parseToken, h]

/-- A parsed token is well formed, and the bytes it stands for are the first of the stream. -/
theorem parseToken_ok {ys after : List Byte} {i : Instr} (h : parseToken ys = .ok (i, after)) :
    ∃ b bs, encode i = .token (b :: bs) ∧ ys = b :: bs ++ after ∧ i.wf = true := by
  match ys with
  | [] => cases h
  | b :: rest =>
    by_cases hb : b = ESC
    · subst hb
      match rest with
      | [] => cases h
      | [_] => cases h
      | l :: v :: ys =>
        rw [parseToken_escape] at h
        by_cases hl : l = 0#8
        · subst hl
          cases h
          exact ⟨_, _, rfl, rfl, rfl⟩
        · rw [if_neg hl] at h
          cases h
          exact ⟨_, _, rfl, rfl, by simpa [Instr.wf] using hl⟩
    · rw [parseToken_literal hb] at h
      cases h
      exact ⟨_, _, rfl, rfl, by simpa [Instr.wf] using hb⟩

/-- A well-formed token's bytes open the stream they stand before. -/
theorem parseToken_of_encode {i : Instr} {bs : List Byte} (h : encode i = .token bs) (hw : i.wf = true) (after : List Byte) :
    parseToken (bs ++ after) = .ok (i, after) := by
  cases i <;> cases h
  case lit b => exact parseToken_literal (by simpa [Instr.wf] using hw) after
  case run l v =>
    have hl : l ≠ 0#8 := by simpa [Instr.wf] using hw
    exact (parseToken_escape l v after).trans (by rw [if_neg hl])
  case run0 v => exact parseToken_escape 0#8 v after

/-- A non-empty stream with no token to open it is `00` or `00 L`. -/
theorem parseToken_error {b : Byte} {ys : List Byte} {r : DecodeReject} (h : parseToken (b :: ys) = .error r) :
    b = ESC ∧ ys.length ≤ 1 := by
  by_cases hb : b = ESC
  · subst hb
    match ys with
    | [] => exact ⟨rfl, by simp⟩
    | [_] => exact ⟨rfl, by simp⟩
    | l :: v :: ys => rw [parseToken_escape] at h; cases h
  · rw [parseToken_literal hb] at h
    cases h

@[simp] theorem parseStream_nil : parseStream [] = ([], []) := by simp [parseStream]

/-- A stream parses to its first token and the tokens after it. -/
theorem parseStream_of_parseToken {ys after : List Byte} {i : Instr} (h : parseToken ys = .ok (i, after)) :
    parseStream ys = (i :: (parseStream after).1, (parseStream after).2) := by
  match ys with
  | [] => cases h
  | b :: rest =>
    by_cases hb : b = ESC
    · subst hb
      match rest with
      | [] => cases h
      | [_] => cases h
      | l :: v :: ys =>
        rw [parseToken_escape] at h
        cases h
        rw [parseStream, if_pos rfl]
    · rw [parseToken_literal hb] at h
      cases h
      conv_lhs => unfold parseStream
      rw [if_neg hb]

/-- A stream with no token to open it is its own tail. -/
theorem parseStream_of_error {ys : List Byte} {r : DecodeReject} (h : parseToken ys = .error r) :
    parseStream ys = ([], ys) := by
  match ys with
  | [] => exact parseStream_nil
  | b :: rest =>
    obtain ⟨rfl, hl⟩ := parseToken_error h
    match rest with
    | [] => simp [parseStream]
    | [_] => simp [parseStream]
    | _ :: _ :: _ => simp at hl

end Sys2Proof
end

