-- ==== Sys2Proof/Laws/PerInstr.lean ====
section
/-! SUPPORT. Statements made once for every instruction, per constructor. -/

namespace Sys2Proof.Laws

/-- Family EncodingFormat: an instruction's encoding has its row's format. CMD9 for the commands, on the row's port, with
c[8] clear in a PUSH and set in END and the reserved words; TOK8 for LIT; TOK24 with the marker first for RUN and RUN0. -/
def EncodingFormat.Statement (i : Instr) : Prop :=
  match i, encode i with
  | .encPush b, .command port c => port = .enc ∧ c.toNat = b.toNat
  | .encEnd, .command port c => port = .enc ∧ c.toNat = 0x100
  | .decPush b, .command port c => port = .dec ∧ c.toNat = b.toNat
  | .decEnd, .command port c => port = .dec ∧ c.toNat = 0x100
  | .reservedCommand p data, .command port c => port = p ∧ c.toNat = 0x100 + data.toNat
  | .lit b, .token bytes => bytes = [b]
  | .run length value, .token bytes => bytes = [ESC, length, value]
  | .run0 value, .token bytes => bytes = [ESC, ESC, value]
  | _, _ => False

theorem toNat_pushWord (b : Byte) : (pushWord b).toNat = b.toNat := by
  have h : (pushWord b).toNat = 0 <<< 8 ||| b.toNat := BitVec.toNat_append ..
  simpa using h

theorem toNat_endWord (d : Byte) : (endWord d).toNat = 0x100 + d.toNat := by
  have h : (endWord d).toNat = 1 <<< 8 ||| d.toNat := BitVec.toNat_append ..
  have hd : d.toNat < 2 ^ 8 := d.isLt
  rw [h, ← Nat.shiftLeft_add_eq_or_of_lt hd]
  rfl

theorem EncodingFormat.encPush (b : Byte) : EncodingFormat.Statement (.encPush b) := ⟨rfl, toNat_pushWord b⟩
theorem EncodingFormat.encEnd : EncodingFormat.Statement .encEnd := ⟨rfl, rfl⟩
theorem EncodingFormat.decPush (b : Byte) : EncodingFormat.Statement (.decPush b) := ⟨rfl, toNat_pushWord b⟩
theorem EncodingFormat.decEnd : EncodingFormat.Statement .decEnd := ⟨rfl, rfl⟩
theorem EncodingFormat.reservedCommand (port : Engine) (data : Byte) :
    EncodingFormat.Statement (.reservedCommand port data) := ⟨rfl, toNat_endWord data⟩
theorem EncodingFormat.lit (b : Byte) : EncodingFormat.Statement (.lit b) := rfl
theorem EncodingFormat.run (length value : Byte) : EncodingFormat.Statement (.run length value) := rfl
theorem EncodingFormat.run0 (value : Byte) : EncodingFormat.Statement (.run0 value) := rfl

end Sys2Proof.Laws
end

