-- ==== Sys2Proof/Laws/Step.lean ====
section
/-! SUPPORT. What a step can do, once. -/

namespace Sys2Proof.Machine

/-! ## Taking a request -/

theorem serve_command (skipped rest : List Request) (p : Engine) (c : Cmd9) (s : State) :
    serve skipped rest (.command p c) s = exec (decodeCommand p c) { s with pending := skipped ++ rest } := rfl

theorem serve_reset (skipped rest : List Request) (s : State) :
    serve skipped rest .reset s = .next (State.assertReset { s with pending := rest }) := rfl

/-- Bytes a decoder instruction presents, from its encoding. -/
theorem presentedBytes_of_encode {i : Instr} {bs : List Byte} (h : encode i = .token bs) : presentedBytes i = some bs := by
  cases i <;> cases h <;> rfl

/-- A request taken with a next state: a command was executed, or the first bytes of a stream, or a RESET. -/
theorem serve_next {skipped rest : List Request} {r : Request} {s t : State} (h : serve skipped rest r s = .next t) :
    (∃ p c, r = .command p c ∧ exec (decodeCommand p c) { s with pending := skipped ++ rest } = .next t) ∨
    (∃ first more i b bs after, r = .stream first more ∧ presentedBytes i = some (b :: bs) ∧
      first :: more = b :: bs ++ after ∧
      exec i { s with pending := streamRequest after ++ (skipped ++ rest) } = .next t) ∨
    (r = .reset ∧ t = State.assertReset { s with pending := rest }) := by
  cases r with
  | command p c => exact .inl ⟨p, c, rfl, h⟩
  | reset => cases h; exact .inr (.inr ⟨rfl, rfl⟩)
  | stream first more =>
    refine .inr (.inl ⟨first, more, ?_⟩)
    simp only [serve, serveStream] at h
    cases hp : parseToken (first :: more) with
    | error x =>
      rw [hp] at h
      exact ⟨.decPush first, first, [], more, rfl, rfl, rfl, h⟩
    | ok ia =>
      obtain ⟨i, after⟩ := ia
      rw [hp] at h
      dsimp only at h
      obtain ⟨b, bs, he, hy, -⟩ := parseToken_ok hp
      cases hx : exec i { s with pending := streamRequest after ++ (skipped ++ rest) } with
      | next u => rw [hx] at h; cases h; exact ⟨i, b, bs, after, rfl, presentedBytes_of_encode he, hy, hx⟩
      | refused x => rw [hx] at h; cases h
      | fault f => rw [hx] at h; exact ⟨.decPush first, first, [], more, rfl, rfl, rfl, h⟩

/-- A request is refused only as a reserved command word. -/
theorem serve_refused {skipped rest : List Request} {r : Request} {s : State} {x : Refusal}
    (h : serve skipped rest r s = .refused x) :
    ∃ p d, d ≠ 0#8 ∧ r = .command p (endWord d) ∧ x = .reservedCommand p d := by
  cases r with
  | command p c =>
    obtain ⟨q, d, hi, rfl⟩ := exec_refused h
    rcases decodeCommand_cases p c with ⟨b, -, hd⟩ | ⟨-, hd⟩ | ⟨d', h0, rfl, hd⟩ <;> rw [hd] at hi
    · cases p <;> cases hi
    · cases p <;> cases hi
    · cases hi; exact ⟨p, d, h0, rfl, rfl⟩
  | reset => cases h
  | stream first more =>
    simp only [serve, serveStream] at h
    have hd : ∀ q, exec (.decPush first) { s with pending := q } ≠ .refused x := fun q => execDecPush_ne_refused _ _ _
    cases hp : parseToken (first :: more) with
    | error e => rw [hp] at h; exact absurd h (hd _)
    | ok ia =>
      obtain ⟨i, after⟩ := ia
      rw [hp] at h
      dsimp only at h
      obtain ⟨b, bs, he, -, -⟩ := parseToken_ok hp
      cases hx : exec i { s with pending := streamRequest after ++ (skipped ++ rest) } with
      | next u => rw [hx] at h; cases h
      | refused y =>
        obtain ⟨q, d, rfl, -⟩ := exec_refused hx
        cases he
      | fault f => rw [hx] at h; exact absurd h (hd _)

/-- The engine a command word's instruction is for is the port it was issued to. -/
theorem engine_decodeCommand (p : Engine) (c : Cmd9) : (decodeCommand p c).engine = p := by
  rcases decodeCommand_cases p c with ⟨b, -, hd⟩ | ⟨-, hd⟩ | ⟨d', -, -, hd⟩ <;> rw [hd] <;> cases p <;> rfl

/-- A request has no step only for the capacity of its engine, and a RESET always has one. -/
theorem serve_fault {skipped rest : List Request} {r : Request} {s : State} {f : Fault}
    (h : serve skipped rest r s = .fault f) :
    s.config.outCapacity ≠ none ∧ ∃ e, r.engine? = some e ∧ f = .capacityStall e := by
  cases r with
  | command p c =>
    obtain ⟨rfl, hc⟩ := exec_fault h
    exact ⟨hc, p, rfl, by rw [engine_decodeCommand]⟩
  | reset => cases h
  | stream first more =>
    have hd : ∀ q, exec (.decPush first) { s with pending := q } = .fault f →
        s.config.outCapacity ≠ none ∧ ∃ e, (Request.stream first more).engine? = some e ∧ f = .capacityStall e := by
      intro q hq
      obtain ⟨rfl, hc⟩ := exec_fault hq
      exact ⟨hc, .dec, rfl, rfl⟩
    simp only [serve, serveStream] at h
    cases hp : parseToken (first :: more) with
    | error e => rw [hp] at h; exact hd _ h
    | ok ia =>
      obtain ⟨i, after⟩ := ia
      rw [hp] at h
      dsimp only at h
      cases hx : exec i { s with pending := streamRequest after ++ (skipped ++ rest) } with
      | next u => rw [hx] at h; cases h
      | refused y => rw [hx] at h; cases h
      | fault g => rw [hx] at h; exact hd _ h

/-! ## Choosing a request -/

@[simp] theorem takeFirst_nil_nil (skipped : List Request) (s : State) : takeFirst [] skipped [] s = .next s := rfl

theorem takeFirst_cons (stuck : List Engine) (skipped : List Request) (r : Request) (rest : List Request) (s : State) :
    takeFirst stuck skipped (r :: rest) s =
      if r.waitsFor stuck then takeFirst stuck (skipped ++ [r]) rest s
      else match serve skipped rest r s with
        | .next t => .next t
        | .refused x => .refused x
        | .fault (.capacityStall e) => takeFirst (e :: stuck) (skipped ++ [r]) rest s := rfl

/-- With a next state, some request was taken, or there was none. -/
theorem takeFirst_next {stuck : List Engine} {skipped rs : List Request} {s t : State}
    (h : takeFirst stuck skipped rs s = .next t) :
    (stuck = [] ∧ rs = [] ∧ t = s) ∨ ∃ pre r rest, rs = pre ++ r :: rest ∧ serve (skipped ++ pre) rest r s = .next t := by
  induction rs generalizing stuck skipped with
  | nil =>
    cases hs : stuck.getLast? with
    | none =>
      simp only [takeFirst, hs] at h
      cases h
      exact .inl ⟨by simpa using hs, rfl, rfl⟩
    | some e => simp only [takeFirst, hs] at h; cases h
  | cons r rest ih =>
    have later : ∀ {stuck'}, takeFirst stuck' (skipped ++ [r]) rest s = .next t → stuck' ≠ [] →
        ∃ pre r' rest', r :: rest = pre ++ r' :: rest' ∧ serve (skipped ++ pre) rest' r' s = .next t := by
      intro stuck' ht hne
      rcases ih ht with ⟨h0, -, -⟩ | ⟨pre, r', rest', hr, hs⟩
      · exact absurd h0 hne
      · exact ⟨r :: pre, r', rest', by rw [hr]; rfl, by simpa using hs⟩
    rw [takeFirst_cons] at h
    split at h
    · rename_i hw
      refine .inr (later h ?_)
      rintro rfl
      unfold Request.waitsFor at hw
      split at hw <;> simp at hw
    · cases hsv : serve skipped rest r s with
      | next u =>
        rw [hsv] at h
        cases h
        exact .inr ⟨[], r, rest, rfl, by simpa using hsv⟩
      | refused x => rw [hsv] at h; cases h
      | fault f =>
        rw [hsv] at h
        cases f with
        | capacityStall e => exact .inr (later h (by simp))

theorem takeFirst_refused {stuck : List Engine} {skipped rs : List Request} {s : State} {x : Refusal}
    (h : takeFirst stuck skipped rs s = .refused x) :
    ∃ pre r rest, rs = pre ++ r :: rest ∧ serve (skipped ++ pre) rest r s = .refused x := by
  induction rs generalizing stuck skipped with
  | nil => cases hs : stuck.getLast? <;> simp only [takeFirst, hs] at h <;> cases h
  | cons r rest ih =>
    have later : ∀ {stuck'}, takeFirst stuck' (skipped ++ [r]) rest s = .refused x →
        ∃ pre r' rest', r :: rest = pre ++ r' :: rest' ∧ serve (skipped ++ pre) rest' r' s = .refused x := by
      intro stuck' ht
      obtain ⟨pre, r', rest', hr, hs⟩ := ih ht
      exact ⟨r :: pre, r', rest', by rw [hr]; rfl, by simpa using hs⟩
    rw [takeFirst_cons] at h
    split at h
    · exact later h
    · cases hsv : serve skipped rest r s with
      | next u => rw [hsv] at h; cases h
      | refused y => rw [hsv] at h; cases h; exact ⟨[], r, rest, rfl, by simpa using hsv⟩
      | fault f => rw [hsv] at h; cases f with | capacityStall e => exact later h

/-- Stuck: every request waits or has no step, so a capacity is finite and no RESET stands. -/
theorem takeFirst_fault {stuck : List Engine} {skipped rs : List Request} {s : State} {f : Fault}
    (h : takeFirst stuck skipped rs s = .fault f) :
    Request.reset ∉ rs ∧ (stuck ≠ [] ∨ (s.config.outCapacity ≠ none ∧ rs ≠ [])) := by
  induction rs generalizing stuck skipped with
  | nil =>
    cases hs : stuck.getLast? with
    | none => simp only [takeFirst, hs] at h; cases h
    | some e => exact ⟨by simp, .inl (by rintro rfl; simp at hs)⟩
  | cons r rest ih =>
    rw [takeFirst_cons] at h
    split at h
    · rename_i hw
      refine ⟨?_, .inl ?_⟩
      · rw [List.mem_cons, not_or]
        exact ⟨by rintro rfl; simp [Request.waitsFor, Request.engine?] at hw, (ih h).1⟩
      · rintro rfl
        unfold Request.waitsFor at hw
        split at hw <;> simp at hw
    · cases hsv : serve skipped rest r s with
      | next u => rw [hsv] at h; cases h
      | refused y => rw [hsv] at h; cases h
      | fault g =>
        obtain ⟨hc, e, he, rfl⟩ := serve_fault hsv
        rw [hsv] at h
        refine ⟨?_, .inr ⟨hc, by simp⟩⟩
        rw [List.mem_cons, not_or]
        exact ⟨fun hr => (by subst hr; cases he), (ih h).1⟩

/-! ## Requests that wait -/

theorem exec_fault_of_pending {i : Instr} {s : State} {f : Fault} (p : List Request) (h : exec i s = .fault f) :
    exec i { s with pending := p } = .fault f := by
  rw [exec_pending, h]; rfl

/-- A request with no step is stuck for the capacity of its engine, whatever stands around it. -/
theorem serve_of_hasNoStep {r : Request} {e : Engine} {s : State} (he : r.engine? = some e) (h : r.HasNoStep s)
    (skipped rest : List Request) : serve skipped rest r s = .fault (.capacityStall e) := by
  have stuck : ∃ f, serve skipped rest r s = .fault f := by
    cases r with
    | command p c => obtain ⟨f, h⟩ := h; exact ⟨f, exec_fault_of_pending _ h⟩
    | reset => exact h.elim
    | stream first more =>
      obtain ⟨f, h⟩ := h
      refine ⟨f, ?_⟩
      have hpush := exec_fault_of_pending (streamRequest more ++ (skipped ++ rest)) h
      simp only [serve, serveStream]
      cases hp : parseToken (first :: more) with
      | error x => exact hpush
      | ok ia =>
        obtain ⟨i, after⟩ := ia
        obtain ⟨b, bs, hi, hy, -⟩ := parseToken_ok hp
        obtain rfl : first = b := (List.cons.inj hy).1
        have htoken : exec i { s with pending := streamRequest after ++ (skipped ++ rest) } = .fault f := by
          rw [exec_of_presentedBytes (presentedBytes_of_encode hi), presentBytes_cons, ← exec_decPush,
            exec_fault_of_pending _ h]
        dsimp only
        rw [htoken]
        exact hpush
  obtain ⟨f, h⟩ := stuck
  obtain ⟨-, e', he', rfl⟩ := serve_fault h
  rw [h, Option.some.inj (he.symm.trans he')]

/-- Requests that wait are passed over: what comes after them is looked at with their engines stuck as well. -/
theorem takeFirst_append_waiting {waiting : List Request} {s : State} {stuck : List Engine} (hr : Request.reset ∉ waiting)
    (h : ∀ e r, e ∉ stuck → waiting.find? (fun q => q.engine? == some e) = some r → r.HasNoStep s)
    (skipped rest : List Request) :
    ∃ new, (∀ e ∈ new, ∃ r ∈ waiting, r.engine? = some e) ∧
      (∀ r e, waiting.head? = some r → r.engine? = some e → stuck = [] → new.getLast? = some e) ∧
      takeFirst stuck skipped (waiting ++ rest) s = takeFirst (new ++ stuck) (skipped ++ waiting) rest s := by
  induction waiting generalizing stuck skipped with
  | nil => exact ⟨[], by simp, by simp, by simp⟩
  | cons r waiting ih =>
    rw [List.mem_cons, not_or] at hr
    obtain ⟨e, he⟩ : ∃ e, r.engine? = some e := by
      cases r with
      | command p c => exact ⟨p, rfl⟩
      | stream b bs => exact ⟨.dec, rfl⟩
      | reset => exact absurd rfl hr.1
    rw [List.cons_append, takeFirst_cons, Request.waitsFor, he]
    by_cases hs : e ∈ stuck
    · obtain ⟨new, hn, -, heq⟩ := ih (stuck := stuck) hr.2 (fun e' q hne hq => h e' q hne (by
        rw [List.find?_cons_of_neg, hq]
        simp only [he, beq_iff_eq, Option.some.injEq]
        rintro rfl
        exact hne hs)) (skipped ++ [r])
      refine ⟨new, fun x hx => ?_, fun _ _ _ _ h0 => absurd hs (by simp [h0]), by simpa [hs] using heq⟩
      obtain ⟨q, hq, hqe⟩ := hn x hx
      exact ⟨q, List.mem_cons_of_mem _ hq, hqe⟩
    · have hno : r.HasNoStep s := h e r hs (List.find?_cons_of_pos (by simp [he]))
      obtain ⟨new, hn, -, heq⟩ := ih (stuck := e :: stuck) hr.2 (fun e' q hne hq => by
        rw [List.mem_cons, not_or] at hne
        refine h e' q hne.2 ?_
        rw [List.find?_cons_of_neg, hq]
        simp only [he, beq_iff_eq, Option.some.injEq]
        exact fun hx => hne.1 hx.symm) (skipped ++ [r])
      refine ⟨new ++ [e], fun x hx => ?_, fun q e' hq hqe _ => ?_, ?_⟩
      · rcases List.mem_append.1 hx with hx | hx
        · obtain ⟨q, hq, hqe⟩ := hn x hx
          exact ⟨q, List.mem_cons_of_mem _ hq, hqe⟩
        · obtain rfl := List.mem_singleton.1 hx
          exact ⟨r, List.mem_cons_self, he⟩
      · cases hq
        rw [List.getLast?_concat, ← he, hqe]
      · simpa [hs, serve_of_hasNoStep he hno] using heq

/-! ## A step -/

/-- A step with a next state keeps an idle block as it is, or takes one request. -/
theorem step_next {s t : State} (h : step s = .next t) :
    (s.pending = [] ∧ t = s) ∨
    ∃ pre r rest, s.pending = pre ++ r :: rest ∧ serve pre rest r s = .next t := by
  rcases takeFirst_next h with ⟨-, h0, rfl⟩ | ⟨pre, r, rest, hr, hs⟩
  · exact .inl ⟨h0, rfl⟩
  · exact .inr ⟨pre, r, rest, hr, by simpa using hs⟩

/-- The request whose turn it is is taken, if it has a step. -/
theorem step_head {s : State} {r : Request} {rest : List Request} (hp : s.pending = r :: rest)
    (h : ∀ f, serve [] rest r s ≠ .fault f) : step s = serve [] rest r s := by
  have hw : r.waitsFor [] = false := by unfold Request.waitsFor; split <;> rfl
  rw [step, hp, takeFirst_cons, hw]
  cases hs : serve [] rest r s with
  | next t => simp
  | refused x => simp
  | fault f => exact absurd hs (h f)

/-! ## Runs -/

/-- A run is a step and the rest of the run. -/
theorem core_run_succ (n : Nat) (s : State) :
    Sys2Proof.core.run (n + 1) s = (match step s with
      | .next t => Sys2Proof.core.run n t
      | .fault f => .fault f
      | .refused r => .refused r) := by
  have h : Sys2Proof.core.step s = step s := rfl
  refine (Host.Core.run.eq_2 Sys2Proof.core s n).trans ?_
  rw [h]
  cases step s <;> rfl

/-- A run that ends in a next state goes on from it. -/
theorem core_run_add {a : Nat} {s t : State} (h : Sys2Proof.core.run a s = .next t) (b : Nat) :
    Sys2Proof.core.run (a + b) s = Sys2Proof.core.run b t := by
  induction a generalizing s with
  | zero => cases h; rw [Nat.zero_add]
  | succ a ih =>
    rw [core_run_succ] at h
    rw [Nat.succ_add, core_run_succ]
    cases hs : step s with
    | next u => rw [hs] at h; exact ih h
    | fault f => rw [hs] at h; cases h
    | refused r => rw [hs] at h; cases h

theorem requestsSize_append (rs qs : List Request) : requestsSize (rs ++ qs) = requestsSize rs + requestsSize qs := by
  simp [requestsSize]

@[simp] theorem requestsSize_streamRequest (bs : List Byte) : requestsSize (streamRequest bs) = bs.length := by
  cases bs <;> simp [requestsSize, streamRequest]

end Sys2Proof.Machine
end

