-- ==== Sys2Proof/Tests/Slice0.lean ====
section
/-! SUPPORT. The model's own tests: expected results are the worked vectors of spec/95_test_vectors.md (E1.., D1.., K1.., L1-..)
or the encodings of spec/30_encoding.md, one step each on a small state. After them, a witness for the hypotheses of every
statement that has some. -/

namespace Sys2Proof.Tests

open Sys2Proof Sys2Proof.Machine

/-! ## Small states -/

/-- The next state of an outcome, if it has one. -/
def nextOf (o : Host.Outcome State Fault Refusal) : Option State :=
  match o with
  | .next t => some t
  | .fault _ => none
  | .refused _ => none

/-- The fault of an outcome, if it is one. -/
def faultOf (o : Host.Outcome State Fault Refusal) : Option Fault :=
  match o with
  | .next _ => none
  | .fault f => some f
  | .refused _ => none

/-- The refusal of an outcome, if it is one. -/
def refusalOf (o : Host.Outcome State Fault Refusal) : Option Refusal :=
  match o with
  | .next _ => none
  | .fault _ => none
  | .refused r => some r

/-- An encoder in the midst of a call. -/
def encAt (value count : Byte) (out : List Byte) : State :=
  { State.reset with enc := { value := value, count := count, out := out } }

/-- A decoder in the midst of a call. -/
def decAt (state : DecPhase) (len : Byte) (pos escPos : Nat) (out : List Byte) : State :=
  { State.reset with dec := { DecState.reset with state := state, len := len, pos := pos, escPos := escPos, out := out } }

/-- The other value of ZERO_LENGTH_POLICY. -/
def reread (s : State) : State := { s with config := { s.config with zeroLengthPolicy := .rereadLength } }

/-- A finite OUT_CAPACITY. -/
def capped (n : Nat) (s : State) : State := { s with config := { s.config with outCapacity := some n } }

/-- Requests issued by the host. -/
def issued (rs : List Request) (s : State) : State := { s with pending := rs }

/-- What the decoder's fields are: state, len, pos, esc_pos. -/
def decFields (s : State) : DecPhase × Byte × Nat × Nat := (s.dec.state, s.dec.len, s.dec.pos, s.dec.escPos)

/-! ## Well-formedness: each check refuses an ill-formed term -/

theorem test_wf_refuses_reserved_with_zero_data : (Instr.reservedCommand .enc 0x00#8).wf = false := by decide
theorem test_wf_refuses_zero_literal : (Instr.lit 0x00#8).wf = false := by decide
theorem test_wf_refuses_run_of_length_zero : (Instr.run 0x00#8 0x41#8).wf = false := by decide
theorem test_wf_accepts_the_others :
    [Instr.encPush 0#8, .encEnd, .decPush 0#8, .decEnd, .reservedCommand .dec 1#8, .lit 1#8, .run 1#8 0#8, .run0 0#8].all
      Instr.wf = true := by decide

/-! ## Decoding: words from R55 to R58 (section 2.8 of the vectors) and R61, R62, R65 (section 2.9) -/

theorem test_decode_push_words :
    decodeCommand .enc 0b001000001#9 = .encPush 0x41#8 ∧ decodeCommand .dec 0b011111111#9 = .decPush 0xFF#8 := by decide
theorem test_decode_end_words :
    decodeCommand .enc 0b100000000#9 = .encEnd ∧ decodeCommand .dec 0b100000000#9 = .decEnd := by decide
theorem test_decode_reserved_words :
    decodeCommand .enc 0b100000001#9 = .reservedCommand .enc 0x01#8 ∧
      decodeCommand .dec 0b111111111#9 = .reservedCommand .dec 0xFF#8 := by decide
theorem test_parse_tokens :
    parseStream [0x00#8, 0x03#8, 0x41#8, 0x42#8] = ([.run 0x03#8 0x41#8, .lit 0x42#8], []) ∧
      parseStream [0x00#8, 0x00#8, 0x41#8] = ([.run0 0x41#8], []) := by decide
theorem test_parse_incomplete :
    parseStream [0x41#8, 0x00#8] = ([.lit 0x41#8], [0x00#8]) ∧
      parseStream [0x00#8, 0x05#8] = ([], [0x00#8, 0x05#8]) := by decide
theorem test_table_words :
    decodeTableWord 16 0x041 = some (.encPush 0x41#8) ∧ decodeTableWord 16 0x101 = some (.reservedCommand .enc 0x01#8) ∧
      decodeTableWord 8 0x4D = some (.lit 0x4D#8) ∧ decodeTableWord 24 0x00173D = some (.run 0x17#8 0x3D#8) ∧
      decodeTableWord 24 0x000041 = some (.run0 0x41#8) ∧ decodeTableWord 8 0x00 = none := by decide
theorem test_table_port_bit :
    decodeTableWord 16 0x241 = some (.decPush 0x41#8) ∧ decodeTableWord 16 0x300 = some .decEnd ∧
      decodeTableWord 16 0x400 = none := by decide
theorem test_encode_words :
    encode (.encPush 0x41#8) = .command .enc 0x041#9 ∧ encode .decEnd = .command .dec 0x100#9 ∧
      encode (.run 0x17#8 0x3D#8) = .token [0x00#8, 0x17#8, 0x3D#8] := by decide

/-! ## ENC.PUSH: vectors E1 to E13 -/

theorem test_flush_table :
    flush 0x41#8 0#8 = [] ∧ flush 0x41#8 1#8 = [0x41#8] ∧ flush 0x41#8 2#8 = [0x41#8, 0x41#8] ∧
      flush 0xFF#8 3#8 = [0x00#8, 0x03#8, 0xFF#8] ∧ flush 0x41#8 255#8 = [0x00#8, 0xFF#8, 0x41#8] := by decide
theorem test_E5_E6_full_run :
    nextOf (exec (.encPush 0x41#8) (encAt 0x41#8 253#8 [])) = some (encAt 0x41#8 254#8 []) ∧
      nextOf (exec (.encPush 0x41#8) (encAt 0x41#8 254#8 [])) =
        some (encAt 0x00#8 0#8 [0x00#8, 0xFF#8, 0x41#8]) := by decide
theorem test_E13_switch_to_zero :
    nextOf (exec (.encPush 0x00#8) (encAt 0x41#8 3#8 [])) =
      some (encAt 0x00#8 0#8 [0x00#8, 0x03#8, 0x41#8, 0x00#8, 0x01#8, 0x00#8]) := by decide

/-! ## ENC.END: vectors E16, K1, K2 -/

theorem test_E16_end :
    nextOf (exec .encEnd (encAt 0x41#8 2#8 [0x00#8, 0x01#8, 0x00#8])) =
      some { State.reset with events := [.result .enc [0x00#8, 0x01#8, 0x00#8, 0x41#8, 0x41#8]] } := by decide
theorem test_K1_K2_end_at_the_capacity :
    faultOf (exec .encEnd (capped 2 (encAt 0x41#8 3#8 []))) = some (.capacityStall .enc) ∧
      nextOf (exec .encEnd (capped 3 (encAt 0x41#8 3#8 []))) =
        some (capped 3 { State.reset with events := [.result .enc [0x00#8, 0x03#8, 0x41#8]] }) := by decide

/-! ## DEC.PUSH: vectors D3, D6, D7, D8 -/

theorem test_D3_D8_escape_and_value :
    (nextOf (exec (.decPush 0x00#8) (decAt .A 0#8 3 0 []))).map decFields = some (.B, 0#8, 4, 3) ∧
      nextOf (exec (.decPush 0x41#8) (decAt .C 3#8 5 3 [])) =
        some (decAt .A 0#8 6 0 [0x41#8, 0x41#8, 0x41#8]) := by decide
theorem test_D6_D7_zero_length :
    (nextOf (exec (.decPush 0x00#8) (decAt .B 0#8 4 3 []))).map decFields = some (.C, 0#8, 5, 3) ∧
      (nextOf (exec (.decPush 0x00#8) (reread (decAt .B 0#8 4 3 [])))).map decFields = some (.B, 0#8, 5, 3) := by decide

/-! ## DEC.END: vectors D13, D15, D16 -/

theorem test_D13_complete :
    nextOf (exec .decEnd (decAt .A 0#8 2 0 [0x41#8, 0x42#8])) =
      some { State.reset with events := [.result .dec [0x41#8, 0x42#8]] } := by decide
theorem test_D15_D16_malformed :
    (nextOf (exec .decEnd (decAt .B 0#8 2 1 [0x41#8]))).map (fun t => (t.dec, t.events)) =
        some ({ DecState.reset with status := 1#2, err := { escapeOffset := 1, inputLength := 2 } },
          [.error .dec { kind := .missingLength, escapeOffset := 1, inputLength := 2 }]) ∧
      (nextOf (exec .decEnd (decAt .C 5#8 2 0 []))).map (fun t => (t.dec, t.events)) =
        some ({ DecState.reset with status := 2#2, err := { escapeOffset := 0, inputLength := 2 } },
          [.error .dec { kind := .missingValue, escapeOffset := 0, inputLength := 2 }]) := by decide

/-! ## The tokens and the reserved words -/

theorem test_lit_token : nextOf (exec (.lit 0x4D#8) (decAt .A 0#8 0 0 [])) = some (decAt .A 0#8 1 0 [0x4D#8]) := by decide
theorem test_run_token_X5 :
    nextOf (exec (.run 0x01#8 0x00#8) (decAt .A 0#8 0 0 [])) = some (decAt .A 0#8 3 0 [0x00#8]) := by decide
theorem test_run0_token_X10_X12 :
    (nextOf (exec (.run0 0x41#8) (decAt .A 0#8 0 0 []))).map decFields = some (.A, 0#8, 3, 0) ∧
      (nextOf (exec (.run0 0x41#8) (reread (decAt .A 0#8 0 0 [])))).map decFields = some (.C, 0x41#8, 3, 0) ∧
      (nextOf (exec (.run0 0x00#8) (reread (decAt .A 0#8 0 0 [])))).map decFields = some (.B, 0#8, 3, 0) := by decide
theorem test_reserved_word_refused :
    refusalOf (step (issued [.command .dec 0x101#9] State.reset)) = some (.reservedCommand .dec 0x01#8) := by decide

/-! ## Steps -/

theorem test_step_runs_the_head :
    nextOf (step (issued [.command .enc 0x041#9, .command .dec 0x041#9] State.reset)) =
      some (issued [.command .dec 0x041#9] (encAt 0x41#8 1#8 [])) := by decide

/-- K3: the RUN token of length 5 has no step under capacity 4, so its bytes are pushed one by one up to the value. -/
theorem test_K3_stalled_token :
    (nextOf (Sys2Proof.core.run 2 (issued [.stream 0x00#8 [0x05#8, 0x41#8]] (capped 4 State.reset)))).map
        (fun t => decFields t) = some (.C, 5#8, 2, 0) ∧
      faultOf (Sys2Proof.core.run 3 (issued [.stream 0x00#8 [0x05#8, 0x41#8]] (capped 4 State.reset))) =
        some (.capacityStall .dec) := by decide

/-- R49: RESET ends the stall of K1. -/
theorem test_reset_ends_stall :
    nextOf (step (issued [.command .enc 0x100#9, .reset] (capped 2 (encAt 0x41#8 3#8 [])))) =
      some (capped 2 State.reset) := by decide

theorem test_placed_table_word_runs :
    nextOf (step (State.reset.withFetchWord 24 0x000341)) = some (decAt .A 0#8 3 0 [0x41#8, 0x41#8, 0x41#8]) := by decide

/-! ## Whole calls: the source's own examples L1-2, L1-5, L1-8 -/

theorem test_L1_encode :
    encodeBytes Config.specDefault [0x00#8] = some [0x00#8, 0x01#8, 0x00#8] ∧
      encodeBytes Config.specDefault [0x41#8, 0x41#8, 0x41#8] = some [0x00#8, 0x03#8, 0x41#8] := by decide

/-- The error of a decode outcome. -/
def errorOf (o : Option (Except MalformedStream (List Byte))) : Option MalformedStream :=
  match o with
  | some (.error info) => some info
  | _ => none

theorem test_L1_8_decode_truncated :
    errorOf (decodeBytes Config.specDefault [0x00#8, 0x05#8]) =
      some { kind := .missingValue, escapeOffset := 0, inputLength := 2 } := by decide

/-! ## Witnesses: a concrete state and operands that meet the hypotheses of each statement -/

/-- Room at the boundary: `n` bytes into an empty encoder buffer of capacity `n`. -/
theorem hasRoom_enc (v c : Byte) (n : Nat) : (capped n (encAt v c [])).HasRoom .enc n := by
  intro cap h
  cases h
  exact (Nat.zero_add n).le

theorem hasRoom_dec (st : DecPhase) (l : Byte) (pos p n : Nat) : (capped n (decAt st l pos p [])).HasRoom .dec n := by
  intro cap h
  cases h
  exact (Nat.zero_add n).le

theorem witness_ResetSetsBothEnginesAndKeepsTheHistory :
    (issued [.reset] (encAt 0x41#8 3#8 [0x42#8])).pending = .reset :: [] := by decide

theorem witness_FlushEncodesARun : 2 < (3#8 : Byte).toNat ∧ 2 < (255#8 : Byte).toNat := by decide

theorem witness_EncPushEscapesAZeroByteWhenIdle :
    ∃ s : State, s.enc.count = 0#8 ∧ s.HasRoom .enc 3 := ⟨capped 3 (encAt 0#8 0#8 []), by decide, hasRoom_enc _ _ _⟩

theorem witness_EncPushStartsARun : ∃ (s : State) (b : Byte), s.enc.count = 0#8 ∧ b ≠ 0x00#8 :=
  ⟨State.reset, 0xFF#8, by decide⟩

theorem witness_EncPushExtendsTheRun :
    (∃ s : State, s.enc.count ≠ 0#8 ∧ s.enc.count.toNat = 1) ∧ (∃ s : State, s.enc.count ≠ 0#8 ∧ s.enc.count.toNat = 253) :=
  ⟨⟨encAt 0x41#8 1#8 [], by decide⟩, ⟨encAt 0x41#8 253#8 [], by decide⟩⟩

theorem witness_EncPushFlushesAFullRun : ∃ s : State, s.enc.count.toNat = 254 ∧ s.HasRoom .enc 3 :=
  ⟨capped 3 (encAt 0x41#8 254#8 []), by decide, hasRoom_enc _ _ _⟩

theorem witness_EncPushSwitchesToAnotherRun :
    ∃ (s : State) (b : Byte), s.enc.count ≠ 0#8 ∧ b ≠ s.enc.value ∧ b ≠ 0x00#8 ∧
      s.HasRoom .enc (flush s.enc.value s.enc.count).length :=
  ⟨capped 3 (encAt 0x41#8 3#8 []), 0x42#8, by decide, by decide, by decide, hasRoom_enc _ _ _⟩

theorem witness_EncPushSwitchesToAZeroByte :
    ∃ s : State, s.enc.count ≠ 0#8 ∧ s.enc.value ≠ 0x00#8 ∧
      s.HasRoom .enc ((flush s.enc.value s.enc.count).length + 3) :=
  ⟨capped 6 (encAt 0x41#8 3#8 []), by decide, by decide, hasRoom_enc _ _ _⟩

theorem witness_EncEndDeliversTheOutput :
    ∃ s : State, s.enc.count ≠ 0#8 ∧ s.HasRoom .enc (flush s.enc.value s.enc.count).length :=
  ⟨capped 3 (encAt 0x41#8 254#8 []), by decide, hasRoom_enc _ _ _⟩

theorem witness_EncoderIsTotal : (encAt 0x41#8 254#8 []).config.outCapacity = none := by decide

theorem witness_EncoderInstructionsFrame :
    (nextOf (exec (.encPush 0x00#8) (encAt 0x41#8 3#8 []))).isSome = true ∧
      (nextOf (exec .encEnd (encAt 0x41#8 3#8 []))).isSome = true := by decide

theorem witness_DecPushEmitsALiteral :
    ∃ (s : State) (b : Byte), s.dec.state = .A ∧ b ≠ 0x00#8 ∧ s.HasRoom .dec 1 :=
  ⟨capped 1 (decAt .A 0#8 0 0 []), 0xFF#8, by decide, by decide, hasRoom_dec _ _ _ _ _⟩

theorem witness_DecPushOpensAnEscape : (decAt .A 0#8 3 0 []).dec.state = .A := by decide

theorem witness_DecPushTakesTheLength : ∃ (s : State) (b : Byte), s.dec.state = .B ∧ b ≠ 0x00#8 :=
  ⟨decAt .B 0#8 4 3 [], 0x01#8, by decide⟩

theorem witness_DecPushTakesAZeroLengthByThePolicy :
    (∃ s : State, s.dec.state = .B ∧ s.config.zeroLengthPolicy = .emitNone) ∧
      (∃ s : State, s.dec.state = .B ∧ s.config.zeroLengthPolicy = .rereadLength) :=
  ⟨⟨decAt .B 0#8 4 3 [], by decide⟩, ⟨reread (decAt .B 0#8 4 3 []), by decide⟩⟩

theorem witness_DecPushRepeatsTheValue :
    (∃ s : State, s.dec.state = .C ∧ s.dec.len.toNat = 0 ∧ s.HasRoom .dec s.dec.len.toNat) ∧
      (∃ s : State, s.dec.state = .C ∧ s.dec.len.toNat = 255 ∧ s.HasRoom .dec s.dec.len.toNat) :=
  ⟨⟨capped 0 (decAt .C 0#8 5 3 []), by decide, by decide, hasRoom_dec _ _ _ _ _⟩,
    ⟨capped 255 (decAt .C 255#8 5 3 []), by decide, by decide, hasRoom_dec _ _ _ _ _⟩⟩

theorem witness_DecEndDeliversACompleteStream : (decAt .A 0#8 2 0 [0x41#8, 0x42#8]).dec.state = .A := by decide

theorem witness_DecEndReportsACutOffToken :
    (decAt .B 0#8 2 1 [0x41#8]).dec.state = .B ∧ (decAt .C 5#8 2 0 []).dec.state = .C := by decide

theorem witness_DecoderIsTotal : (decAt .C 255#8 5 3 []).config.outCapacity = none := by decide

theorem witness_DecoderInstructionsFrame :
    (nextOf (exec (.decPush 0x41#8) (decAt .C 3#8 5 3 []))).isSome = true ∧
      (nextOf (exec (.lit 0x41#8) (decAt .B 0#8 5 3 []))).isSome = true ∧
      (nextOf (exec (.run 2#8 0x41#8) (decAt .A 0#8 0 0 []))).isSome = true ∧
      (nextOf (exec (.run0 0x41#8) (decAt .A 0#8 0 0 []))).isSome = true ∧
      (nextOf (exec .decEnd (decAt .C 3#8 5 3 []))).isSome = true := by decide

theorem witness_LitTokenStandsForItsByte :
    ∃ (s : State) (b : Byte), s.dec.state = .A ∧ b ≠ 0x00#8 ∧ s.HasRoom .dec 1 :=
  ⟨capped 1 (decAt .A 0#8 0 0 []), 0x01#8, by decide, by decide, hasRoom_dec _ _ _ _ _⟩

theorem witness_RunTokenStandsForItsRepeat :
    ∃ (s : State) (length : Byte), s.dec.state = .A ∧ length ≠ 0x00#8 ∧ length.toNat = 255 ∧
      s.HasRoom .dec length.toNat :=
  ⟨capped 255 (decAt .A 0#8 0 0 []), 255#8, by decide, by decide, by decide, hasRoom_dec _ _ _ _ _⟩

theorem witness_Run0TokenFollowsThePolicy :
    (∃ s : State, s.dec.state = .A ∧ s.config.zeroLengthPolicy = .emitNone) ∧
      (∃ (s : State) (v : Byte), s.dec.state = .A ∧ s.config.zeroLengthPolicy = .rereadLength ∧ v ≠ 0x00#8) ∧
      (∃ (s : State) (v : Byte), s.dec.state = .A ∧ s.config.zeroLengthPolicy = .rereadLength ∧ v = 0x00#8) :=
  ⟨⟨State.reset, by decide⟩, ⟨reread State.reset, 0x01#8, by decide⟩, ⟨reread State.reset, 0x00#8, by decide⟩⟩

theorem witness_ReservedCommandIsRefused : (0x01#8 : Byte) ≠ 0#8 ∧ (0xFF#8 : Byte) ≠ 0#8 := by decide

/-- Both outcomes at the capacity: 3 bytes into 3 and into 2. -/
theorem witness_PushStallsExactlyPastTheCapacity :
    (nextOf (exec (.encPush 0x00#8) (capped 3 State.reset))).isSome = true ∧
      faultOf (exec (.encPush 0x00#8) (capped 2 State.reset)) = some (.capacityStall .enc) ∧
      (nextOf (exec (.decPush 0x41#8) (capped 5 (decAt .C 5#8 2 0 [])))).isSome = true ∧
      faultOf (exec (.decPush 0x41#8) (capped 4 (decAt .C 5#8 2 0 []))) = some (.capacityStall .dec) := by decide

/-- Both outcomes at the capacity: a flush of 3 bytes into 2 and into 3. -/
theorem witness_EncEndStallsExactlyPastTheCapacity :
    (capped 2 (encAt 0x41#8 3#8 [])).config.outCapacity = some 2 ∧
      faultOf (exec .encEnd (capped 2 (encAt 0x41#8 3#8 []))) = some (.capacityStall .enc) ∧
      (nextOf (exec .encEnd (capped 3 (encAt 0x41#8 3#8 [])))).isSome = true := by decide

/-- The widest steps of R44. -/
theorem witness_OneStepAppendsAtMostItsWidth :
    (nextOf (exec (.encPush 0x00#8) (encAt 0x41#8 3#8 []))).map (fun t => t.enc.out.length) = some 6 ∧
      (nextOf (exec .encEnd (encAt 0x41#8 3#8 []))).map (fun t => t.events) =
        some [.result .enc [0x00#8, 0x03#8, 0x41#8]] ∧
      (nextOf (exec (.decPush 0x00#8) (decAt .C 4#8 5 3 []))).map (fun t => t.dec.out.length) = some 4 := by decide

theorem witness_HostReadsEveryField :
    (decAt .A 0#8 0 0 []).dec.state = .A ∧ (decAt .B 0#8 1 0 []).dec.state = .B ∧ (decAt .C 1#8 2 0 []).dec.state = .C := by
  decide

theorem witness_DecodeOfEncodeIsTheInstruction : (Instr.run 255#8 0x00#8).wf = true := by decide

theorem witness_EncodeOfDecodeIsTheWord :
    decode (.command .dec 0x1FF#9) = .ok (.reservedCommand .dec 0xFF#8) ∧
      decode (.token [0x00#8, 0x01#8, 0x00#8]) = .ok (.run 0x01#8 0x00#8) := ⟨rfl, rfl⟩

/-- Tokens of each kind with each tail, and the stream they are the one parse of. -/
theorem witness_EveryStreamParsesToTokens :
    (∀ i ∈ [Instr.lit 0x41#8, .run 0x01#8 0x00#8, .run0 0x00#8], IsToken i) ∧
      IsTail [] ∧ IsTail [0x00#8] ∧ IsTail [0x00#8, 0x00#8] ∧
      ([Instr.lit 0x41#8, .run 0x01#8 0x00#8, .run0 0x00#8].map tokenBytes).flatten ++ [0x00#8, 0x00#8] =
        [0x41#8, 0x00#8, 0x01#8, 0x00#8, 0x00#8, 0x00#8, 0x00#8, 0x00#8, 0x00#8] :=
  ⟨by simp [IsToken, Instr.wf, ESC], .inl rfl, .inr (.inl rfl), .inr (.inr ⟨_, rfl⟩), by decide⟩

theorem witness_StepRunsTheDecodedInstruction :
    ∃ (s : State) (e : Encoding) (i : Instr) (rest : List Request), decode e = .ok i ∧
      s.pending = encodingRequests e ++ rest ∧ ∀ f, exec i { s with pending := rest } ≠ .fault f :=
  ⟨issued [.stream 0x00#8 [0x02#8, 0x41#8], .reset] State.reset, .token [0x00#8, 0x02#8, 0x41#8], .run 0x02#8 0x41#8,
    [.reset], rfl, rfl, fun _ h => by cases h⟩

theorem witness_StepTakesStreamBytesInOrder :
    (∃ i after, parseToken [0x41#8, 0x42#8] = .ok (i, after) ∧
      ∀ f, exec i (issued (streamRequest after) State.reset) ≠ .fault f) ∧
    (∃ i after f t, parseToken [0x00#8, 0x05#8, 0x41#8] = .ok (i, after) ∧
      exec i (issued (streamRequest after) (capped 4 State.reset)) = .fault f ∧
      exec (.decPush 0x00#8) (issued (streamRequest [0x05#8, 0x41#8]) (capped 4 State.reset)) = .next t) ∧
    (∃ r t, parseToken [0x00#8, 0x05#8] = .error r ∧
      exec (.decPush 0x00#8) (issued (streamRequest [0x05#8]) State.reset) = .next t) :=
  ⟨⟨_, _, rfl, fun _ h => by cases h⟩, ⟨_, _, _, _, rfl, rfl, rfl⟩, ⟨_, _, rfl, rfl⟩⟩

theorem witness_StepRunsThePlacedTableWord :
    decodeTableWord 24 0x00FF41 = some (.run 0xFF#8 0x41#8) ∧ decodeTableWord 16 0x100 = some .encEnd ∧
      ∀ f, exec .encEnd State.reset ≠ .fault f := ⟨by decide, by decide, fun _ h => by cases h⟩

theorem witness_IdleStepKeepsTheState : State.reset.pending = [] := by decide

/-- An encoder whose ENC.END is past the capacity, and a decoder whose pending run is (K1, K3). -/
def bothStuck : State :=
  capped 2 { State.reset with enc := { value := 0x41#8, count := 3#8, out := [] }
                              dec := { DecState.reset with state := .C, len := 5#8, pos := 2 } }

theorem bothStuck_wait (rs : List Request) :
    AllWait [.command .enc 0x100#9, .stream 0x41#8 [0x42#8], .command .enc 0x041#9] (issued rs bothStuck) := by
  refine ⟨by simp, ?_⟩
  rintro (_ | _) r h <;> cases h
  · exact ⟨_, rfl⟩
  · exact ⟨_, rfl⟩

/-- The encoder is stuck at a command with another behind it; the decoder's command, and the token and the pushes of its
stream bytes, are enabled. -/
theorem witness_AStalledEngineHoldsUpOnlyItself :
    (Request.command .enc 0x100#9).engine? = some .enc ∧ (∀ r ∈ [Request.command .enc 0x041#9], r.engine? = some .enc) ∧
      (Request.command .enc 0x100#9).HasNoStep (capped 2 (encAt 0x41#8 3#8 [])) ∧
      (∀ f, exec (decodeCommand .dec 0x041#9) (capped 2 (encAt 0x41#8 3#8 [])) ≠ .fault f) ∧
      (∃ i, parseToken [0x00#8, 0x02#8, 0x41#8] = .ok (i, []) ∧
        ∀ f, exec i (capped 2 (encAt 0x41#8 3#8 [])) ≠ .fault f) ∧
      (∃ i f t, parseToken [0x00#8, 0x05#8, 0x41#8] = .ok (i, []) ∧
        exec i (capped 2 (encAt 0x41#8 3#8 [])) = .fault f ∧
        exec (.decPush 0x00#8) (capped 2 (encAt 0x41#8 3#8 [])) = .next t) :=
  ⟨rfl, (by simp [Request.engine?]), ⟨_, rfl⟩, (fun _ h => by cases h), ⟨_, rfl, fun _ h => by cases h⟩, ⟨_, _, _, rfl, rfl, rfl⟩⟩

/-- The decoder is stuck at stream bytes, with an encoder command behind them; and both engines are stuck. -/
theorem witness_AStalledEngineHoldsUpOnlyItself_stream :
    (Request.stream 0x41#8 [0x42#8]).HasNoStep bothStuck ∧
      (∀ f, exec (decodeCommand .enc 0x041#9) bothStuck ≠ .fault f) ∧
      nextOf (step (issued [.stream 0x41#8 [0x42#8], .command .dec 0x100#9, .command .enc 0x041#9] bothStuck)) =
        some (issued [.stream 0x41#8 [0x42#8], .command .dec 0x100#9]
          { bothStuck with enc := { value := 0x41#8, count := 4#8, out := [] } }) ∧
      faultOf (step (issued [.stream 0x41#8 [0x42#8], .command .enc 0x100#9] bothStuck)) = some (.capacityStall .dec) :=
  ⟨⟨_, rfl⟩, (fun _ h => by cases h), by decide, by decide⟩

/-- RESET behind both engines' waiting requests, stream bytes among them. -/
theorem witness_ResetEndsAStall :
    ∃ (s : State) (waiting rest : List Request), AllWait waiting s ∧ waiting.length = 3 ∧
      s.pending = waiting ++ .reset :: rest ∧ nextOf (step s) = some (capped 2 (issued rest State.reset)) :=
  ⟨issued [.command .enc 0x100#9, .stream 0x41#8 [0x42#8], .command .enc 0x041#9, .reset, .command .dec 0x041#9] bothStuck,
    [.command .enc 0x100#9, .stream 0x41#8 [0x42#8], .command .enc 0x041#9], [.command .dec 0x041#9],
    bothStuck_wait _, rfl, rfl, by decide⟩

theorem witness_StepStopsOnlyForCapacityOrReservedWords :
    (∃ (s : State) (f : Fault), step s = .fault f) ∧ (∃ (s : State) (r : Refusal), step s = .refused r) :=
  ⟨⟨issued [.command .enc 0x100#9] (capped 2 (encAt 0x41#8 3#8 [])), _, rfl⟩,
    ⟨issued [.command .enc 0x1FF#9] State.reset, _, rfl⟩⟩

/-- A step of each kind: idle, a push, DEC.END, RESET. -/
theorem witness_steps :
    (nextOf (step State.reset)).isSome = true ∧
      (nextOf (step (issued [.command .enc 0x000#9] State.reset))).isSome = true ∧
      (nextOf (step (issued [.command .dec 0x100#9] (decAt .B 0#8 1 0 [])))).map (fun t => t.dec.status) = some 1#2 ∧
      (nextOf (step (issued [.reset] (decAt .B 0#8 1 0 [])))).isSome = true := by decide

theorem witness_StatusIsWrittenOnlyByDecEndOrReset :
    ∃ s t : State, step s = .next t ∧ t.dec.status ≠ s.dec.status :=
  ⟨issued [.command .dec 0x100#9] (decAt .B 0#8 1 0 []), _, rfl, by decide⟩

theorem witness_StepFrame : ∃ (s t : State) (ev : Event), step s = .next t ∧ t.events = s.events ++ [ev] :=
  ⟨issued [.command .enc 0x100#9] State.reset, _, _, rfl, rfl⟩

/-- An encoder with a run of 254 and a decoder in state C meet the invariant. -/
theorem witness_StepKeepsTheInvariant : ∃ s t : State, s.Inv ∧ step s = .next t ∧ t ≠ s := by
  refine ⟨issued [.command .enc 0x041#9]
    { (decAt .C 5#8 2 0 []) with enc := { value := 0x41#8, count := 254#8, out := [] } }, _, ⟨⟨?_, ?_, ?_⟩,
      ⟨?_, ?_, ?_, ?_, ?_, ?_, ?_, ?_⟩, ?_⟩, rfl, by decide⟩ <;> simp [issued, decAt, DecState.reset, State.reset]

theorem witness_AnEngineDoesNotSeeTheOther :
    ∃ s u t t' : State, s.config = u.config ∧ s.enc = u.enc ∧ s.dec ≠ u.dec ∧ Instr.encEnd.engine = .enc ∧
      exec .encEnd s = .next t ∧ exec .decEnd s = .next t' :=
  ⟨State.reset, decAt .C 5#8 2 0 [], _, _, rfl, rfl, by decide, rfl, rfl, rfl⟩

theorem witness_AnEngineDoesNotSeeTheOther_decoder :
    ∃ s u t : State, s.config = u.config ∧ s.dec = u.dec ∧ s.enc ≠ u.enc ∧ Instr.decEnd.engine = .dec ∧
      exec .decEnd s = .next t :=
  ⟨State.reset, encAt 0x41#8 3#8 [], _, rfl, rfl, by decide, rfl, rfl⟩

theorem witness_EngineStepsCommute :
    ∃ s a t : State, Instr.encEnd.engine = .enc ∧ Instr.decEnd.engine = .dec ∧
      exec .encEnd s = .next a ∧ exec .decEnd a = .next t := ⟨State.reset, _, _, rfl, rfl, rfl, rfl⟩

theorem witness_EncoderCallDeliversEncode :
    ∃ s : State, s.config.outCapacity = none ∧ s.enc = State.reset.enc ∧ s.events ≠ [] :=
  ⟨{ State.reset with events := [.result .enc []] }, by decide⟩

theorem witness_DecoderCallReportsDecode :
    ∃ s : State, s.config.outCapacity = none ∧ s.dec.status = 1#2 ∧
      s.dec = { State.reset.dec with status := s.dec.status, err := s.dec.err } :=
  ⟨{ State.reset with dec := { DecState.reset with status := 1#2, err := { escapeOffset := 1, inputLength := 2 } } },
    by decide⟩

/-- The configurations of the statements about whole calls, under each policy. -/
theorem witness_configs :
    Config.specDefault.outCapacity = none ∧ Config.specDefault.zeroLengthPolicy = .emitNone ∧
      (reread State.reset).config.outCapacity = none := by decide

theorem witness_EncodeEmitsOnlyCanonicalTokens_EncodeAtMostTriples :
    ∃ ys, encodeBytes Config.specDefault [0x00#8, 0x00#8] = some ys ∧ ys.length = 3 * 2 :=
  ⟨[0x00#8, 0x01#8, 0x00#8, 0x00#8, 0x01#8, 0x00#8], by decide⟩

theorem witness_DecodeAtMostEightyFiveTimes_DecodeJoinsCompleteStreams :
    ∃ xs xs', decodeBytes Config.specDefault [0x00#8, 0x02#8, 0x41#8] = some (.ok xs) ∧
      decodeBytes Config.specDefault [0x42#8] = some (.ok xs') := ⟨_, _, rfl, rfl⟩

theorem witness_AStreamRunsAsItsPushes : (issued [.stream 0x00#8 []] State.reset).pending = [.stream 0x00#8 []] := by decide

theorem witness_IssuedEncoderCallRunsToItsResult :
    ∃ (s : State) (rest : List Request), s.config.outCapacity = none ∧ s.enc = State.reset.enc ∧
      s.pending = [0x41#8].map (fun b => .command .enc (pushWord b)) ++ .command .enc (endWord 0#8) :: rest :=
  ⟨issued [.command .enc 0x041#9, .command .enc 0x100#9, .reset] State.reset, [.reset], by decide⟩

/-- A decoder at the start of a call after a failed one, with a call issued as commands and as stream bytes. -/
theorem witness_IssuedDecoderCallRunsToItsEvent :
    ∃ s : State, s.config.outCapacity = none ∧ s.dec.status = 1#2 ∧
      s.dec = { State.reset.dec with status := s.dec.status, err := s.dec.err } ∧
      (issued ([0x00#8, 0x05#8].map (fun b => .command .dec (pushWord b)) ++ [.command .dec (endWord 0#8)]) s).pending =
        [.command .dec 0x000#9, .command .dec 0x005#9, .command .dec 0x100#9] ∧
      (issued (streamRequest [0x00#8, 0x05#8] ++ [.command .dec (endWord 0#8)]) s).pending =
        [.stream 0x00#8 [0x05#8], .command .dec 0x100#9] :=
  ⟨{ State.reset with dec := { DecState.reset with status := 1#2, err := { escapeOffset := 1, inputLength := 2 } } },
    by decide⟩

theorem witness_EveryIssuedRequestIsTaken :
    ∃ s : State, s.config.outCapacity = none ∧ s.NoReservedIssued ∧ s.pending ≠ [] := by
  refine ⟨issued [.stream 0x00#8 [0x41#8], .reset] State.reset, by decide, ?_, by decide⟩
  intro port data _ h
  simp [issued] at h

end Sys2Proof.Tests
end

namespace Sys2Proof.Machine

/-! ## Steps of the decoded instruction (R14, R46) -/

/-- Bytes that decode to an instruction are one whole token of the stream, with nothing after it (R60). -/
theorem parseToken_of_decode_token {bytes : List Byte} {i : Instr} (h : decode (.token bytes) = .ok i) :
    parseToken bytes = .ok (i, []) := by
  simp only [decode] at h
  split at h
  case h_1 => cases h
  case h_2 j hparse => cases h; exact hparse
  case h_3 => cases h

/-- A stream request whose first token has a step runs that token as a whole (R60, log 6). -/
theorem serve_stream_of_parseToken {first : Byte} {more after : List Byte} {i : Instr} {skipped rest : List Request}
    {s : State} (hparse : parseToken (first :: more) = .ok (i, after))
    (hstep : ∀ f, exec i { s with pending := streamRequest after ++ (skipped ++ rest) } ≠ .fault f) :
    serve skipped rest (.stream first more) s =
      exec i { s with pending := streamRequest after ++ (skipped ++ rest) } := by
  simp only [serve, serveStream, hparse]
  cases hx : exec i { s with pending := streamRequest after ++ (skipped ++ rest) } with
  | next t => rfl
  | refused r => rfl
  | fault f => exact absurd hx (hstep f)

/-- An encoding that decodes is presented by one request, and serving it at the head runs the decoded instruction. -/
theorem encodingRequests_of_decode {e : Encoding} {i : Instr} (h : decode e = .ok i) :
    ∃ r, encodingRequests e = [r] ∧ ∀ (s : State) (rest : List Request),
      (∀ f, exec i { s with pending := rest } ≠ .fault f) → serve [] rest r s = exec i { s with pending := rest } := by
  cases e with
  | command port c =>
    cases h
    exact ⟨.command port c, rfl, fun s rest _ => serve_command [] rest port c s⟩
  | token bytes =>
    have hparse := parseToken_of_decode_token h
    cases bytes with
    | nil => cases hparse
    | cons first more => exact ⟨.stream first more, rfl, fun _ _ hstep => serve_stream_of_parseToken hparse hstep⟩

/-- Settles O35: the encoding is one request at the head, and serving it is exec of the decoded instruction. -/
theorem stepRunsTheDecodedInstruction : Obligations.StepRunsTheDecodedInstruction := by
  unfold Obligations.StepRunsTheDecodedInstruction
  intro s e i rest hdecode hpending hstep
  obtain ⟨r, hr, hserve⟩ := encodingRequests_of_decode hdecode
  have hrun := hserve s rest hstep
  have hhead : s.pending = r :: rest := by rw [hpending, hr]; rfl
  have hnofault : ∀ f, serve [] rest r s ≠ .fault f := by rwa [hrun]
  exact (step_head hhead hnofault).trans hrun

end Sys2Proof.Machine

namespace Sys2Proof.Machine

/-! ## What DEC.END does, as functions of the decoder (R106 to R108) -/

/-- The decoder DEC.END leaves: at the start of a call, with the outcome in DEC_STATUS and DEC_ERR. -/
def decEndState (d : DecState) : DecState :=
  match d.state with
  | .A => DecState.reset
  | .B => { DecState.reset with status := 1#2, err := { escapeOffset := d.escPos, inputLength := d.pos } }
  | .C => { DecState.reset with status := 2#2, err := { escapeOffset := d.escPos, inputLength := d.pos } }

/-- The event DEC.END reports. -/
def decEndEvent (d : DecState) : Event :=
  match d.state with
  | .A => .result .dec d.out
  | .B => .error .dec { kind := .missingLength, escapeOffset := d.escPos, inputLength := d.pos }
  | .C => .error .dec { kind := .missingValue, escapeOffset := d.escPos, inputLength := d.pos }

/-- DEC.END writes the decoder and appends one event, and both are read off the decoder alone. -/
theorem execDecEnd_eq_next (s : State) :
    execDecEnd s = .next { s with dec := decEndState s.dec, events := s.events ++ [decEndEvent s.dec] } := by
  rw [execDecEnd_eq, decEndState, decEndEvent]
  cases s.dec.state <;> rfl

theorem decEndEvent_cases (d : DecState) :
    (∃ bs, decEndEvent d = .result .dec bs) ∨ ∃ info, decEndEvent d = .error .dec info := by
  unfold decEndEvent
  cases d.state with
  | A => exact .inl ⟨_, rfl⟩
  | B => exact .inr ⟨_, rfl⟩
  | C => exact .inr ⟨_, rfl⟩

/-! ## The four kinds of instruction that have a next state -/

/-- An instruction with a next state is ENC.PUSH, ENC.END, DEC.END, or presents bytes to the decoder. -/
theorem exec_next {i : Instr} {s t : State} (h : exec i s = .next t) :
    (∃ b, i = .encPush b ∧ execEncPush b s = .next t) ∨
    (i = .encEnd ∧ execEncEnd s = .next t) ∨
    (i = .decEnd ∧ t = { s with dec := decEndState s.dec, events := s.events ++ [decEndEvent s.dec] }) ∨
    (∃ bs, presentedBytes i = some bs ∧ presentBytes bs s = .next t) := by
  have presents : ∀ bs, presentedBytes i = some bs → ∃ bs, presentedBytes i = some bs ∧ presentBytes bs s = .next t :=
    fun bs hbs => ⟨bs, hbs, (exec_of_presentedBytes hbs s).symm.trans h⟩
  cases i with
  | encPush b => exact .inl ⟨b, rfl, h⟩
  | encEnd => exact .inr (.inl ⟨rfl, h⟩)
  | decEnd =>
    rw [exec_decEnd, execDecEnd_eq_next] at h
    cases h
    exact .inr (.inr (.inl ⟨rfl, rfl⟩))
  | reservedCommand p d => cases h
  | decPush b => exact .inr (.inr (.inr (presents _ rfl)))
  | lit b => exact .inr (.inr (.inr (presents _ rfl)))
  | run l v => exact .inr (.inr (.inr (presents _ rfl)))
  | run0 v => exact .inr (.inr (.inr (presents _ rfl)))

/-- R36: an instruction reports at most one event. -/
theorem exec_events {i : Instr} {s t : State} (h : exec i s = .next t) :
    t.events = s.events ∨ ∃ ev, t.events = s.events ++ [ev] := by
  rcases exec_next h with ⟨b, -, h⟩ | ⟨-, h⟩ | ⟨-, rfl⟩ | ⟨bs, -, h⟩
  · obtain ⟨_, _, _, -, -, rfl⟩ := execEncPush_next h
    exact .inl rfl
  · obtain ⟨-, rfl⟩ := execEncEnd_next h
    exact .inr ⟨_, rfl⟩
  · exact .inr ⟨_, rfl⟩
  · obtain ⟨-, -, -, hev, -⟩ := presentBytes_keeps h
    exact .inl hev

/-- R31, R32: DEC.END alone writes DEC_STATUS and DEC_ERR. -/
theorem exec_status {i : Instr} {s t : State} (h : exec i s = .next t) :
    (t.dec.status = s.dec.status ∧ t.dec.err = s.dec.err) ∨
    (i = .decEnd ∧ t.events = s.events ++ [decEndEvent s.dec]) := by
  rcases exec_next h with ⟨b, -, h⟩ | ⟨-, h⟩ | ⟨rfl, rfl⟩ | ⟨bs, -, h⟩
  · obtain ⟨_, _, _, -, -, rfl⟩ := execEncPush_next h
    exact .inl ⟨rfl, rfl⟩
  · obtain ⟨-, rfl⟩ := execEncEnd_next h
    exact .inl ⟨rfl, rfl⟩
  · exact .inr ⟨rfl, rfl⟩
  · obtain ⟨-, -, -, -, hstatus, herr, -⟩ := presentBytes_keeps h
    exact .inl ⟨hstatus, herr⟩

/-! ## What a step does to the state: nothing, one instruction, or RESET -/

/-- Log 2: the requests `p` are a remainder of `q`, no more of them than before and with no new command. -/
def RemainderOf (p q : List Request) : Prop :=
  requestsSize p ≤ requestsSize q ∧ ∀ port c, Request.command port c ∈ p → Request.command port c ∈ q

theorem remainderOf_refl (p : List Request) : RemainderOf p p := ⟨le_rfl, fun _ _ h => h⟩

/-- Dropping requests leaves a remainder. -/
theorem remainderOf_of_sublist {p q : List Request} (h : p.Sublist q) : RemainderOf p q :=
  ⟨(h.map _).sum_le_sum (fun _ _ => Nat.zero_le _), fun _ _ hm => h.subset hm⟩

/-- Taking at least one byte of a stream request leaves a remainder, with the rest of the bytes ahead of the others. -/
theorem remainderOf_stream {first b : Byte} {more bs after : List Byte} (pre rest : List Request)
    (h : first :: more = b :: bs ++ after) :
    RemainderOf (streamRequest after ++ (pre ++ rest)) (pre ++ .stream first more :: rest) := by
  have hlen : more.length = bs.length + after.length := by simpa using congrArg List.length h
  have hstream : ∀ port c, Request.command port c ∉ streamRequest after := by cases after <;> simp [streamRequest]
  constructor
  · have hcons : requestsSize (.stream first more :: rest) = more.length + 1 + requestsSize rest := by
      simp [requestsSize]
    simp only [requestsSize_append, requestsSize_streamRequest, hcons]
    omega
  · intro port c hm
    simpa [hstream] using hm

/-- R57: the only word for DEC.END is 0x100 on the decoder's port. -/
theorem eq_of_decodeCommand_decEnd {p : Engine} {c : Cmd9} (h : decodeCommand p c = .decEnd) :
    p = .dec ∧ c = 0x100#9 := by
  rcases decodeCommand_cases p c with ⟨b, -, hd⟩ | ⟨rfl, hd⟩ | ⟨d, -, -, hd⟩ <;> rw [hd] at h
  · cases p <;> cases h
  · cases p with
    | enc => cases h
    | dec => exact ⟨rfl, rfl⟩
  · cases h

/-- A step with a next state leaves the state as it is, runs one instruction with some of the requests taken, or is RESET. -/
theorem step_effect {s t : State} (h : step s = .next t) :
    t = s ∨
    (∃ i p, exec i { s with pending := p } = .next t ∧ RemainderOf p s.pending ∧
      (i = .decEnd → Request.command .dec 0x100#9 ∈ s.pending)) ∨
    (∃ p, t = State.assertReset { s with pending := p } ∧ RemainderOf p s.pending ∧ Request.reset ∈ s.pending) := by
  rcases step_next h with ⟨-, rfl⟩ | ⟨pre, r, rest, hp, hserve⟩
  · exact .inl rfl
  have hdrop : (pre ++ rest).Sublist (pre ++ r :: rest) := (List.sublist_cons_self r rest).append_left pre
  rw [hp]
  rcases serve_next hserve with ⟨p, c, rfl, he⟩ | ⟨first, more, i, b, bs, after, rfl, hi, hbytes, he⟩ | ⟨rfl, rfl⟩
  · refine .inr (.inl ⟨_, _, he, remainderOf_of_sublist hdrop, fun hend => ?_⟩)
    obtain ⟨rfl, rfl⟩ := eq_of_decodeCommand_decEnd hend
    simp
  · refine .inr (.inl ⟨_, _, he, remainderOf_stream pre rest hbytes, ?_⟩)
    rintro rfl
    cases hi
  · have hrest : rest.Sublist (pre ++ .reset :: rest) := (List.sublist_append_right pre rest).trans hdrop
    exact .inr (.inr ⟨_, rfl, remainderOf_of_sublist hrest, by simp⟩)

/-! ## The invariant of the encoder (R22, R23, R25) -/

/-- At the start of a call no run is in progress and nothing has been emitted. -/
theorem EncState.start_inv (config : Config) : EncState.start.Inv config where
  count_le := by simp
  unset_iff := by simp
  out_le := by simp

/-- Every arm of ENC.PUSH leaves a count of at most 254, 0 exactly when the value is unset. -/
theorem EncArm.keeps_run {e : EncState} {b : Byte} {bs : List Byte} {v c : Byte} (arm : EncArm e b bs v c)
    (hle : e.count.toNat ≤ 254) (hunset : e.count = 0#8 ↔ e.value = 0#8) : c.toNat ≤ 254 ∧ (c = 0#8 ↔ v = 0#8) := by
  cases arm with
  | zeroIdle hc hb => exact ⟨hle, hunset⟩
  | start hc hb => exact ⟨by decide, by simpa using hb⟩
  | extend hc hb hlt =>
    have hnext : (e.count + 1#8).toNat = e.count.toNat + 1 := by bv_omega
    have hne : e.count + 1#8 ≠ 0#8 := by bv_omega
    exact ⟨by omega, by simp [hne, ← hunset, hc]⟩
  | full hc hb hge => exact ⟨by decide, by simp⟩
  | switch hc hv hb => exact ⟨by decide, by simpa using hb⟩
  | switchZero hc hv hb => exact ⟨by decide, by simp⟩

theorem EncState.Inv.push {config : Config} {e : EncState} {b : Byte} {bs : List Byte} {v c : Byte} (he : e.Inv config)
    (arm : EncArm e b bs v c) (hf : fits config.outCapacity e.out bs = true) :
    EncState.Inv config { value := v, count := c, out := e.out ++ bs } :=
  have hrun := arm.keeps_run he.count_le he.unset_iff
  { count_le := hrun.1, unset_iff := hrun.2, out_le := length_append_le_of_fits hf he.out_le }

/-! ## The invariant of the decoder (R26 to R32, R50) -/

/-- At the start of a call the invariant is what it says about DEC_STATUS and DEC_ERR. -/
theorem DecState.startOfCall_inv (config : Config) {status : BitVec 2} {err : DecErr} (hne : status ≠ 3#2)
    (hok : status = 0#2 → err = { escapeOffset := 0, inputLength := 0 })
    (hlength : status = 1#2 → err.escapeOffset + 1 ≤ err.inputLength)
    (hvalue : status = 2#2 → err.escapeOffset + 2 ≤ err.inputLength) :
    DecState.Inv config { DecState.reset with status := status, err := err } where
  inA _ := ⟨rfl, rfl, by simp⟩
  inB := nofun
  inC := nofun
  out_le := by simp
  status_ne := hne
  err_ok := hok
  err_missingLength := hlength
  err_missingValue := hvalue

theorem DecState.reset_inv (config : Config) : DecState.reset.Inv config :=
  DecState.startOfCall_inv config (by decide) (fun _ => rfl) (by decide) (by decide)

/-- Every arm of DEC.PUSH keeps the invariant; R50's 85 bytes a byte are the 255 of a RUN over its three bytes. -/
theorem DecState.Inv.push {config : Config} {d : DecState} {b : Byte} {bs : List Byte} {st : DecPhase} {l : Byte} {p : Nat}
    (hd : d.Inv config) (arm : DecArm config.zeroLengthPolicy d b bs st l p)
    (hf : fits config.outCapacity d.out bs = true) :
    DecState.Inv config { d with state := st, len := l, escPos := p, pos := d.pos + 1, out := d.out ++ bs } := by
  have hout := length_append_le_of_fits hf hd.out_le
  cases arm with
  | literal hs hb =>
    obtain ⟨hlen, hesc, hbound⟩ := hd.inA hs
    have hgrow : (d.out ++ [b]).length ≤ 85 * (d.pos + 1) := by rw [List.length_append, List.length_singleton]; omega
    exact { hd with inA := fun _ => ⟨hlen, hesc, hgrow⟩, inB := nofun, inC := nofun, out_le := hout }
  | escape hs hb =>
    obtain ⟨hlen, -, hbound⟩ := hd.inA hs
    exact { hd with inA := nofun, inB := fun _ => ⟨hlen, le_rfl, by simpa using hbound⟩, inC := nofun, out_le := hout }
  | length hs hb =>
    obtain ⟨-, hpos, hbound⟩ := hd.inB hs
    exact { hd with
      inA := nofun, inB := nofun, out_le := hout
      inC := fun _ => ⟨Nat.succ_le_succ hpos, by simpa using hbound, fun h0 => absurd h0 hb⟩ }
  | zeroLengthNone hs hb hp =>
    obtain ⟨-, hpos, hbound⟩ := hd.inB hs
    exact { hd with
      inA := nofun, inB := nofun, out_le := hout
      inC := fun _ => ⟨Nat.succ_le_succ hpos, by simpa using hbound, fun _ => hp⟩ }
  | zeroLengthReread hs hb hp =>
    obtain ⟨hlen, hpos, hbound⟩ := hd.inB hs
    exact { hd with
      inA := nofun, inC := nofun, out_le := hout
      inB := fun _ => ⟨hlen, Nat.le_succ_of_le hpos, by simpa using hbound⟩ }
  | value hs =>
    obtain ⟨hpos, hbound, -⟩ := hd.inC hs
    have hrepeat : d.len.toNat < 256 := d.len.isLt
    have hgrow : (d.out ++ runBytes b d.len).length ≤ 85 * (d.pos + 1) := by
      rw [List.length_append, runBytes_length]; omega
    exact { hd with inA := fun _ => ⟨rfl, rfl, hgrow⟩, inB := nofun, inC := nofun, out_le := hout }

/-- DEC.END records an error only with the marker, and in state C the length, before the end of the input. -/
theorem DecState.Inv.endState {config : Config} {d : DecState} (hd : d.Inv config) : (decEndState d).Inv config := by
  unfold decEndState
  cases hs : d.state with
  | A => exact DecState.reset_inv config
  | B =>
    obtain ⟨-, hpos, -⟩ := hd.inB hs
    exact DecState.startOfCall_inv config (by decide) nofun (fun _ => hpos) nofun
  | C =>
    obtain ⟨hpos, -⟩ := hd.inC hs
    exact DecState.startOfCall_inv config (by decide) nofun nofun (fun _ => hpos)

theorem DecState.Inv.endEvent {config : Config} {d : DecState} (hd : d.Inv config) : (decEndEvent d).Inv config := by
  unfold decEndEvent
  cases hs : d.state with
  | A => exact hd.out_le
  | B =>
    obtain ⟨-, hpos, -⟩ := hd.inB hs
    exact ⟨rfl, hpos⟩
  | C =>
    obtain ⟨hpos, -⟩ := hd.inC hs
    exact ⟨rfl, Nat.lt_of_succ_lt hpos⟩

/-! ## The invariant of the block -/

/-- The invariant says nothing about the requests. -/
theorem State.Inv.withPending {s : State} (hs : s.Inv) (p : List Request) : State.Inv { s with pending := p } :=
  ⟨hs.enc, hs.dec, hs.events⟩

/-- An event that meets its invariant may be appended. -/
theorem State.Inv.append_event {s : State} (hs : s.Inv) {ev : Event} (hev : ev.Inv s.config) :
    ∀ e ∈ s.events ++ [ev], e.Inv s.config := by
  intro e he
  rcases List.mem_append.1 he with he | he
  · exact hs.events e he
  · rwa [List.mem_singleton.1 he]

theorem presentBytes_keeps_inv {bs : List Byte} {s t : State} (h : presentBytes bs s = .next t) : s.Inv → t.Inv := by
  refine presentBytes_induct (P := fun s t => s.Inv → t.Inv) (fun _ hs => hs) (fun f g hs => g (f hs)) ?_ h
  intro b s t h hs
  obtain ⟨_, _, _, _, arm, hf, rfl⟩ := execDecPush_next h
  exact ⟨hs.enc, hs.dec.push arm hf, hs.events⟩

theorem exec_keeps_inv {i : Instr} {s t : State} (hs : s.Inv) (h : exec i s = .next t) : t.Inv := by
  rcases exec_next h with ⟨b, -, h⟩ | ⟨-, h⟩ | ⟨-, rfl⟩ | ⟨bs, -, h⟩
  · obtain ⟨_, _, _, arm, hf, rfl⟩ := execEncPush_next h
    exact ⟨hs.enc.push arm hf, hs.dec, hs.events⟩
  · obtain ⟨hf, rfl⟩ := execEncEnd_next h
    exact ⟨EncState.start_inv _, hs.dec, hs.append_event (length_append_le_of_fits hf hs.enc.out_le)⟩
  · exact ⟨hs.enc, hs.dec.endState, hs.append_event hs.dec.endEvent⟩
  · exact presentBytes_keeps_inv h hs

theorem assertReset_keeps_inv {s : State} (hs : s.Inv) : s.assertReset.Inv :=
  ⟨EncState.start_inv _, DecState.reset_inv _, hs.events⟩

/-- Settles O45: a step does nothing, runs one instruction or is RESET, and each keeps the invariant. -/
theorem stepKeepsTheInvariant : Obligations.StepKeepsTheInvariant := by
  unfold Obligations.StepKeepsTheInvariant
  intro s t hs h
  rcases step_effect h with rfl | ⟨i, p, he, -⟩ | ⟨p, rfl, -⟩
  · exact hs
  · exact exec_keeps_inv (hs.withPending p) he
  · exact assertReset_keeps_inv (hs.withPending p)

/-! ## Frames -/

/-- Settles O12: the inversions of ENC.PUSH and ENC.END write the encoder's fields and ENC.END's event only. -/
theorem encoderInstructionsFrame : Obligations.EncoderInstructionsFrame := by
  unfold Obligations.EncoderInstructionsFrame
  refine fun s t => ⟨fun b h => ?_, fun h => ?_⟩
  · obtain ⟨bs, _, _, -, -, rfl⟩ := execEncPush_next h
    exact ⟨rfl, rfl, rfl, rfl, bs, rfl⟩
  · obtain ⟨-, rfl⟩ := execEncEnd_next h
    exact ⟨rfl, rfl, rfl, _, rfl⟩

/-- Settles O21: DEC.PUSH and the tokens are bytes presented, which keep the rest; DEC.END appends its one event. -/
theorem decoderInstructionsFrame : Obligations.DecoderInstructionsFrame := by
  unfold Obligations.DecoderInstructionsFrame
  refine fun s t i h => ⟨fun hi => ?_, ?_⟩
  · obtain ⟨bs, hbs⟩ : ∃ bs, presentedBytes i = some bs := by
      rcases hi with ⟨b, rfl⟩ | ⟨b, rfl⟩ | ⟨l, v, rfl⟩ | ⟨v, rfl⟩ <;> exact ⟨_, rfl⟩
    exact presentBytes_keeps ((exec_of_presentedBytes hbs s).symm.trans h)
  · rintro rfl
    rw [exec_decEnd, execDecEnd_eq_next] at h
    cases h
    exact ⟨rfl, rfl, rfl, _, rfl⟩

/-- Settles O42: of the instructions a step can run only DEC.END writes the two registers. -/
theorem statusIsWrittenOnlyByDecEndOrReset : Obligations.StatusIsWrittenOnlyByDecEndOrReset := by
  unfold Obligations.StatusIsWrittenOnlyByDecEndOrReset
  intro s t h
  rcases step_effect h with rfl | ⟨i, p, he, -, hissued⟩ | ⟨p, rfl, -, hreset⟩
  · exact .inl ⟨rfl, rfl⟩
  · rcases exec_status he with hkept | ⟨hi, hev⟩
    · exact .inl hkept
    · refine .inr (.inl ⟨hissued hi, ?_⟩)
      rcases decEndEvent_cases s.dec with ⟨bs, hbs⟩ | ⟨info, hinfo⟩
      · exact .inl ⟨bs, hbs ▸ hev⟩
      · exact .inr ⟨info, hinfo ▸ hev⟩
  · exact .inr (.inr ⟨hreset, rfl, rfl⟩)

/-- Settles O43: a step reports what its one instruction does, and leaves a remainder of the requests. -/
theorem stepFrame : Obligations.StepFrame := by
  unfold Obligations.StepFrame
  intro s t h
  rcases step_effect h with rfl | ⟨i, p, he, hp, -⟩ | ⟨p, rfl, hp, -⟩
  · exact ⟨.inl rfl, rfl, remainderOf_refl _⟩
  · obtain ⟨hconfig, hpending⟩ := exec_keeps he
    exact ⟨exec_events (s := { s with pending := p }) he, hconfig, hpending ▸ hp⟩
  · exact ⟨.inl rfl, rfl, hp⟩

/-! ## One engine put into another state (R47) -/

/-- `u` with the parameters and the engine `e` of `s`. -/
def State.withEngineOf (e : Engine) (s u : State) : State :=
  match e with
  | .enc => { u with config := s.config, enc := s.enc }
  | .dec => { u with config := s.config, dec := s.dec }

theorem State.withEngineOf_enc_of_agree {s u : State} (hconfig : s.config = u.config) (henc : s.enc = u.enc) :
    s.withEngineOf .enc u = u := by
  rw [State.withEngineOf, hconfig, henc]

theorem State.withEngineOf_dec_of_agree {s u : State} (hconfig : s.config = u.config) (hdec : s.dec = u.dec) :
    s.withEngineOf .dec u = u := by
  rw [State.withEngineOf, hconfig, hdec]

/-- Emit reads and writes its own engine, so it does in any state what it does to that engine in `s`. -/
theorem emitThen_withEngineOf {e : Engine} {bs : List Byte} {k : State → State} {s t : State} (u : State)
    (hk : ∀ r : State, k (r.withEngineOf e u) = (k r).withEngineOf e u) (h : emitThen e bs k s = .next t) :
    emitThen e bs k (s.withEngineOf e u) = .next (t.withEngineOf e u) := by
  obtain ⟨hf, rfl⟩ := emitThen_next h
  have happend : (s.withEngineOf e u).appendOut e bs = (s.appendOut e bs).withEngineOf e u := by cases e <;> rfl
  rw [emitThen_of_fits k (by cases e <;> exact hf), happend, hk]

theorem execEncPush_withEngineOf {b : Byte} {s t : State} (u : State) (h : execEncPush b s = .next t) :
    execEncPush b (s.withEngineOf .enc u) = .next (t.withEngineOf .enc u) := by
  have henc : (s.withEngineOf .enc u).enc = s.enc := rfl
  unfold execEncPush at h ⊢
  rw [henc]
  split_ifs at h ⊢
  all_goals exact emitThen_withEngineOf u (fun _ => rfl) h

theorem armZeroLength_withEngineOf {s t : State} (u : State) (h : armZeroLength s = .next t) :
    armZeroLength (s.withEngineOf .dec u) = .next (t.withEngineOf .dec u) := by
  have hconfig : (s.withEngineOf .dec u).config = s.config := rfl
  unfold armZeroLength at h ⊢
  rw [hconfig]
  cases hp : s.config.zeroLengthPolicy <;> rw [hp] at h <;> exact emitThen_withEngineOf u (fun _ => rfl) h

theorem execDecPush_withEngineOf {b : Byte} {s t : State} (u : State) (h : execDecPush b s = .next t) :
    execDecPush b (s.withEngineOf .dec u) = .next (t.withEngineOf .dec u) := by
  have hdec : (s.withEngineOf .dec u).dec = s.dec := rfl
  unfold execDecPush at h ⊢
  rw [hdec]
  cases hs : s.dec.state <;> simp only [hs] at h ⊢
  case A => split_ifs at h ⊢ <;> exact emitThen_withEngineOf u (fun _ => rfl) h
  case B =>
    split_ifs at h ⊢
    · exact emitThen_withEngineOf u (fun _ => rfl) h
    · exact armZeroLength_withEngineOf u h
  case C => exact emitThen_withEngineOf u (fun _ => rfl) h

theorem presentBytes_withEngineOf {bs : List Byte} {s t : State} (u : State) (h : presentBytes bs s = .next t) :
    presentBytes bs (s.withEngineOf .dec u) = .next (t.withEngineOf .dec u) := by
  induction bs generalizing s with
  | nil => cases h; rfl
  | cons b bs ih =>
    rw [presentBytes_cons] at h ⊢
    cases hp : execDecPush b s with
    | next r => rw [hp] at h; rw [execDecPush_withEngineOf u hp]; exact ih h
    | fault f => rw [hp] at h; cases h
    | refused r => rw [hp] at h; cases h

/-- ENC.END has a next state where its flush fits (R88). -/
theorem execEncEnd_of_fits {s : State} (h : fits s.config.outCapacity s.enc.out (flush s.enc.value s.enc.count) = true) :
    execEncEnd s = .next { s with
      enc := EncState.start
      events := s.events ++ [.result .enc (s.enc.out ++ flush s.enc.value s.enc.count)] } :=
  emitThen_of_fits _ h

theorem engine_of_presentedBytes {i : Instr} {bs : List Byte} (h : presentedBytes i = some bs) : i.engine = .dec := by
  cases i <;> cases h <;> rfl

/-- An encoder instruction does to any state that agrees on the encoder what it does to `s`, and leaves the decoder. -/
theorem exec_enc_of_agree {i : Instr} {s t u : State} (hi : i.engine = .enc) (hconfig : s.config = u.config)
    (henc : s.enc = u.enc) (h : exec i s = .next t) :
    t.dec = s.dec ∧ ∃ v evs, exec i u = .next v ∧ v.enc = t.enc ∧ v.dec = u.dec ∧
      t.events = s.events ++ evs ∧ v.events = u.events ++ evs := by
  rcases exec_next h with ⟨b, rfl, h⟩ | ⟨rfl, h⟩ | ⟨rfl, -⟩ | ⟨bs, hbs, -⟩
  · have hu := execEncPush_withEngineOf u h
    rw [State.withEngineOf_enc_of_agree hconfig henc] at hu
    obtain ⟨_, _, _, -, -, rfl⟩ := execEncPush_next h
    exact ⟨rfl, _, [], hu, rfl, rfl, by simp, by simp [State.withEngineOf]⟩
  · obtain ⟨hf, rfl⟩ := execEncEnd_next h
    rw [hconfig, henc] at hf
    exact ⟨rfl, _, [_], execEncEnd_of_fits hf, rfl, rfl, by rw [henc], rfl⟩
  · cases hi
  · rw [engine_of_presentedBytes hbs] at hi
    cases hi

/-- A decoder instruction does to any state that agrees on the decoder what it does to `s`, and leaves the encoder. -/
theorem exec_dec_of_agree {i : Instr} {s t u : State} (hi : i.engine = .dec) (hconfig : s.config = u.config)
    (hdec : s.dec = u.dec) (h : exec i s = .next t) :
    t.enc = s.enc ∧ ∃ v evs, exec i u = .next v ∧ v.dec = t.dec ∧ v.enc = u.enc ∧
      t.events = s.events ++ evs ∧ v.events = u.events ++ evs := by
  rcases exec_next h with ⟨b, rfl, -⟩ | ⟨rfl, -⟩ | ⟨rfl, rfl⟩ | ⟨bs, hbs, h⟩
  · cases hi
  · cases hi
  · exact ⟨rfl, _, [_], execDecEnd_eq_next u, by rw [hdec], rfl, by rw [hdec], rfl⟩
  · have hu := presentBytes_withEngineOf u h
    rw [State.withEngineOf_dec_of_agree hconfig hdec, ← exec_of_presentedBytes hbs] at hu
    obtain ⟨henc, -, -, hevents, -⟩ := presentBytes_keeps h
    exact ⟨henc, _, [], hu, rfl, rfl, by simpa using hevents, by simp [State.withEngineOf]⟩

/-- Settles O46: each engine's instructions read and write that engine only. -/
theorem anEngineDoesNotSeeTheOther : Obligations.AnEngineDoesNotSeeTheOther := by
  unfold Obligations.AnEngineDoesNotSeeTheOther
  intro s u t i hconfig h
  exact ⟨fun hi henc => exec_enc_of_agree hi hconfig henc h, fun hi hdec => exec_dec_of_agree hi hconfig hdec h⟩

/-! ## Reset and the host's reads -/

/-- Settles O1: each field of the reset state is its value in the table of R37. -/
theorem resetHoldsTheSpecValues : Obligations.ResetHoldsTheSpecValues := by
  unfold Obligations.ResetHoldsTheSpecValues
  exact ⟨rfl, rfl, rfl⟩

/-- R26: `dec.state` reads as its code. -/
theorem hostRead_decState {s : State} {p : DecPhase} (h : s.dec.state = p) : hostRead .decState s = .code p.code := by
  rw [hostRead, h]

/-- Settles O30: every field is read as it is held, and `dec.state` by its code in each of the three states. -/
theorem hostReadsEveryField : Obligations.HostReadsEveryField := by
  unfold Obligations.HostReadsEveryField
  intro s
  exact ⟨rfl, rfl, rfl, rfl, hostRead_decState, hostRead_decState, hostRead_decState, rfl, rfl, rfl, rfl, rfl, rfl⟩

/-- Settles O44: both engines are at the start of a call and there is no event yet. -/
theorem resetMeetsTheInvariant : Obligations.ResetMeetsTheInvariant := by
  unfold Obligations.ResetMeetsTheInvariant
  exact ⟨EncState.start_inv _, DecState.reset_inv _, by simp⟩

end Sys2Proof.Machine

namespace Sys2Proof.Machine

/-! ## Past the capacity (R49) -/

/-- `s` with an unbounded buffer. -/
def State.uncapped (s : State) : State := { s with config := { s.config with outCapacity := none } }

/-- Bytes do not fit exactly where they make the buffer another one, longer than the capacity (log 10). -/
theorem fits_some_iff_not_past (cap : Nat) (out bs : List Byte) :
    fits (some cap) out bs = true ↔ ¬ (out ++ bs ≠ out ∧ cap < (out ++ bs).length) := by
  rw [fits_some, ne_eq, List.append_right_eq_self, List.length_append]
  by_cases hbs : bs = [] <;> simp [hbs]

theorem emitThen_of_not_fits {e : Engine} {bs : List Byte} {s : State} (k : State → State)
    (h : ¬ fits s.config.outCapacity (s.outOf e) bs = true) : emitThen e bs k s = .fault (.capacityStall e) := by
  rw [emitThen, if_neg h]

theorem State.outOf_appendOut (e : Engine) (bs : List Byte) (s : State) :
    (s.appendOut e bs).outOf e = s.outOf e ++ bs := by
  cases e <;> rfl

/-- R49 of one step of engine `e` at `s`, with the outcomes it has under no capacity and under `cap`: it is stuck exactly
where the next state under no capacity has another buffer, longer than `cap`, and otherwise gives that state. -/
def StallsExactlyPast (e : Engine) (cap : Nat) (s : State) (unbounded bounded : Host.Outcome State Fault Refusal) : Prop :=
  ∃ t, unbounded = .next t ∧
    (t.outOf e ≠ s.outOf e ∧ cap < (t.outOf e).length → bounded = .fault (.capacityStall e)) ∧
    (¬ (t.outOf e ≠ s.outOf e ∧ cap < (t.outOf e).length) → bounded = .next { t with config := s.config })

/-- Emit obeys R49 where the other writes of the step leave its buffer alone and do not depend on the parameters. -/
theorem emitThen_stallsExactlyPast {e : Engine} {bs : List Byte} {k : State → State} {s : State} {cap : Nat}
    (hcap : s.config.outCapacity = some cap) (hout : ∀ r : State, (k r).outOf e = r.outOf e)
    (hconfig : ∀ (r : State) (c : Config), { k r with config := c } = k { r with config := c }) :
    StallsExactlyPast e cap s (emitThen e bs k s.uncapped) (emitThen e bs k s) := by
  have hfits := fits_some_iff_not_past cap (s.outOf e) bs
  rw [← hcap] at hfits
  have hbuffer : (k (s.uncapped.appendOut e bs)).outOf e = s.outOf e ++ bs := by
    rw [hout, State.outOf_appendOut]
    cases e <;> rfl
  have hnext : { k (s.uncapped.appendOut e bs) with config := s.config } = k (s.appendOut e bs) := by
    rw [hconfig]
    cases e <;> rfl
  refine ⟨_, emitThen_unbounded e bs k rfl, ?_, ?_⟩
  · rw [hbuffer]
    exact fun hpast => emitThen_of_not_fits k fun hf => hfits.1 hf hpast
  · rw [hbuffer, hnext]
    exact fun hwithin => emitThen_of_fits k (hfits.2 hwithin)

theorem execEncPush_stallsExactlyPast (b : Byte) {s : State} {cap : Nat} (hcap : s.config.outCapacity = some cap) :
    StallsExactlyPast .enc cap s (execEncPush b s.uncapped) (execEncPush b s) := by
  have henc : s.uncapped.enc = s.enc := rfl
  unfold execEncPush
  rw [henc]
  split_ifs
  all_goals exact emitThen_stallsExactlyPast hcap (fun _ => rfl) (fun _ _ => rfl)

theorem armZeroLength_stallsExactlyPast {s : State} {cap : Nat} (hcap : s.config.outCapacity = some cap) :
    StallsExactlyPast .dec cap s (armZeroLength s.uncapped) (armZeroLength s) := by
  have hpolicy : s.uncapped.config.zeroLengthPolicy = s.config.zeroLengthPolicy := rfl
  unfold armZeroLength
  rw [hpolicy]
  cases s.config.zeroLengthPolicy
  all_goals exact emitThen_stallsExactlyPast hcap (fun _ => rfl) (fun _ _ => rfl)

theorem execDecPush_stallsExactlyPast (b : Byte) {s : State} {cap : Nat} (hcap : s.config.outCapacity = some cap) :
    StallsExactlyPast .dec cap s (execDecPush b s.uncapped) (execDecPush b s) := by
  have hdec : s.uncapped.dec = s.dec := rfl
  unfold execDecPush
  rw [hdec]
  cases s.dec.state
  case A => dsimp only; split_ifs <;> exact emitThen_stallsExactlyPast hcap (fun _ => rfl) (fun _ _ => rfl)
  case B =>
    dsimp only
    split_ifs
    · exact emitThen_stallsExactlyPast hcap (fun _ => rfl) (fun _ _ => rfl)
    · exact armZeroLength_stallsExactlyPast hcap
  case C => exact emitThen_stallsExactlyPast hcap (fun _ => rfl) (fun _ _ => rfl)

/-- Settles O27: every arm of both pushes is one Emit, with other writes that leave the buffer and the parameters alone. -/
theorem pushStallsExactlyPastTheCapacity : Obligations.PushStallsExactlyPastTheCapacity := by
  unfold Obligations.PushStallsExactlyPastTheCapacity
  rintro s cap i hcap (⟨b, rfl⟩ | ⟨b, rfl⟩)
  · exact execEncPush_stallsExactlyPast b hcap
  · exact execDecPush_stallsExactlyPast b hcap

theorem execEncEnd_of_not_fits {s : State}
    (h : ¬ fits s.config.outCapacity s.enc.out (flush s.enc.value s.enc.count) = true) :
    execEncEnd s = .fault (.capacityStall .enc) :=
  emitThen_of_not_fits _ h

/-- Settles O28: the flush fits exactly where the delivered bytes are the old buffer or within the capacity. -/
theorem encEndStallsExactlyPastTheCapacity : Obligations.EncEndStallsExactlyPastTheCapacity := by
  unfold Obligations.EncEndStallsExactlyPastTheCapacity
  intro s cap hcap
  have hfits := fits_some_iff_not_past cap s.enc.out (flush s.enc.value s.enc.count)
  rw [← hcap] at hfits
  refine ⟨_, _, execEncEnd_of_fits (s := s.uncapped) rfl, rfl, fun hpast => ?_, fun hwithin => ?_⟩
  · exact execEncEnd_of_not_fits fun hf => hfits.1 hf hpast
  · exact execEncEnd_of_fits (hfits.2 hwithin)

/-! ## The width of one step (R44) -/

theorem EncArm.length_le {e : EncState} {b : Byte} {bs : List Byte} {v c : Byte} (arm : EncArm e b bs v c) :
    bs.length ≤ 6 := by
  have hflush := flush_length_le e.value e.count
  cases arm with
  | zeroIdle | start | extend | full => simp
  | switch => omega
  | switchZero => rw [List.length_append, zeroEscape_length]; omega

theorem DecArm.length_le {policy : ZeroLengthPolicy} {d : DecState} {b : Byte} {bs : List Byte} {st : DecPhase} {l : Byte}
    {p : Nat} (arm : DecArm policy d b bs st l p) : bs.length ≤ 255 := by
  cases arm with
  | literal | escape | length | zeroLengthNone | zeroLengthReread => simp
  | value => rw [runBytes_length]; exact Nat.le_of_lt_succ d.len.isLt

/-- Settles O29: the widest arm of each push, and the flush of ENC.END. -/
theorem oneStepAppendsAtMostItsWidth : Obligations.OneStepAppendsAtMostItsWidth := by
  unfold Obligations.OneStepAppendsAtMostItsWidth
  refine fun s t => ⟨fun b h => ?_, fun bs h hev => ?_, fun b h => ?_⟩
  · obtain ⟨bs, _, _, arm, -, rfl⟩ := execEncPush_next h
    have hwidth := arm.length_le
    simpa using hwidth
  · obtain ⟨-, rfl⟩ := execEncEnd_next h
    obtain rfl : s.enc.out ++ flush s.enc.value s.enc.count = bs := by simpa using hev
    simpa using flush_length_le s.enc.value s.enc.count
  · obtain ⟨bs, _, _, _, arm, -, rfl⟩ := execDecPush_next h
    have hwidth := arm.length_le
    simpa using hwidth

/-! ## Past the requests that wait (R46, R47, R49) -/

theorem Request.engine?_eq_none_iff {r : Request} : r.engine? = none ↔ r = .reset := by
  cases r <;> simp [Request.engine?]

theorem Request.waitsFor_eq_false {r : Request} {stuck : List Engine} (h : ∀ e ∈ stuck, r.engine? ≠ some e) :
    r.waitsFor stuck = false := by
  unfold Request.waitsFor
  split
  case h_1 => rfl
  case h_2 e he => simpa using fun hmem => h e hmem he

/-- A step looks past the requests that wait at the head, with their engines found stuck, the first one's first. -/
theorem step_eq_takeFirst_of_waiting {s : State} {waiting rest : List Request} (hp : s.pending = waiting ++ rest)
    (hwait : AllWait waiting s) :
    ∃ stuck, (∀ e ∈ stuck, ∃ r ∈ waiting, r.engine? = some e) ∧
      (∀ r e, waiting.head? = some r → r.engine? = some e → stuck.getLast? = some e) ∧
      step s = takeFirst stuck waiting rest s := by
  obtain ⟨hreset, hfirst⟩ := hwait
  obtain ⟨stuck, hstuck, hlast, heq⟩ :=
    takeFirst_append_waiting (stuck := []) hreset (fun e r _ hr => hfirst e r hr) [] rest
  rw [List.append_nil, List.nil_append, ← hp] at heq
  exact ⟨stuck, hstuck, fun r e hr he => hlast r e hr he rfl, heq⟩

/-- A request of an engine none of whose requests wait before it, or a RESET, is taken past those that wait, if it has a
step. -/
theorem step_past_waiting {s : State} {waiting rest : List Request} {r : Request} (hp : s.pending = waiting ++ r :: rest)
    (hwait : AllWait waiting s) (hother : ∀ q ∈ waiting, q.engine? ≠ r.engine?)
    (hstep : ∀ f, serve waiting rest r s ≠ .fault f) : step s = serve waiting rest r s := by
  obtain ⟨stuck, hstuck, -, heq⟩ := step_eq_takeFirst_of_waiting hp hwait
  have hw : r.waitsFor stuck = false := by
    refine Request.waitsFor_eq_false fun e he hr => ?_
    obtain ⟨q, hq, hqe⟩ := hstuck e he
    exact hother q hq (hqe.trans hr.symm)
  rw [heq, takeFirst_cons, hw]
  cases hs : serve waiting rest r s with
  | next t => simp
  | refused x => simp
  | fault f => exact absurd hs (hstep f)

/-- Where every request waits, the step is the stall of the first one's engine. -/
theorem step_of_allWait {s : State} {r : Request} {others : List Request} {e : Engine} (hp : s.pending = r :: others)
    (hwait : AllWait (r :: others) s) (he : r.engine? = some e) : step s = .fault (.capacityStall e) := by
  obtain ⟨stuck, -, hlast, heq⟩ := step_eq_takeFirst_of_waiting (rest := []) (by rw [hp, List.append_nil]) hwait
  rw [heq, takeFirst, hlast r e rfl he]

/-- A request with no step and requests of its engine behind it wait. -/
theorem allWait_of_sameEngine {s : State} {p : Engine} {blocked : Request} {behind : List Request}
    (he : ∀ q ∈ blocked :: behind, q.engine? = some p) (hno : blocked.HasNoStep s) : AllWait (blocked :: behind) s := by
  refine ⟨fun hreset => (by cases he _ hreset), fun e r hr => ?_⟩
  have hblocked := he blocked List.mem_cons_self
  by_cases hep : e = p
  · rw [List.find?_cons_of_pos (by simp [hblocked, hep])] at hr
    cases hr
    exact hno
  · have hre : r.engine? = some e := by simpa using List.find?_some hr
    have hrp : r.engine? = some p := he r (List.mem_of_find?_eq_some hr)
    exact absurd (Option.some.inj (hre.symm.trans hrp)) hep

/-- Stream bytes whose first token is not there or has no step are taken by one DEC.PUSH (R41, log 6). -/
theorem serve_stream_of_no_token {first : Byte} {more : List Byte} {skipped rest : List Request} {s : State}
    (h : ∀ i after, parseToken (first :: more) = .ok (i, after) →
      ∃ f, exec i { s with pending := streamRequest after ++ (skipped ++ rest) } = .fault f) :
    serve skipped rest (.stream first more) s =
      exec (.decPush first) { s with pending := streamRequest more ++ (skipped ++ rest) } := by
  simp only [serve, serveStream]
  cases hp : parseToken (first :: more) with
  | error x => rfl
  | ok ia =>
    obtain ⟨i, after⟩ := ia
    obtain ⟨f, hf⟩ := h i after hp
    simp only [hf]

/-- Settles O39: the stuck engine's requests wait, and the first of the other engine is taken past them. -/
theorem aStalledEngineHoldsUpOnlyItself : Obligations.AStalledEngineHoldsUpOnlyItself := by
  unfold Obligations.AStalledEngineHoldsUpOnlyItself
  intro s p blocked behind rest hblocked hbehind hno
  have hengine : ∀ q ∈ blocked :: behind, q.engine? = some p := List.forall_mem_cons.2 ⟨hblocked, hbehind⟩
  have hwait := allWait_of_sameEngine hengine hno
  have other : ∀ {r : Request} {q : Engine}, r.engine? = some q → q ≠ p →
      ∀ w ∈ blocked :: behind, w.engine? ≠ r.engine? := by
    intro r q hr hq w hw heq
    exact hq (Option.some.inj (hr.symm.trans (heq.symm.trans (hengine w hw))))
  refine ⟨fun q c hq hp hstep => ?_, fun b more hdec hp => ⟨fun i after hparse hstep => ?_, fun t hno hpush => ?_⟩,
    fun others hp hall => step_of_allWait hp hall hblocked⟩
  · exact step_past_waiting hp hwait (other rfl hq) hstep
  · have hserve := serve_stream_of_parseToken hparse hstep
    rw [← hserve]
    exact step_past_waiting hp hwait (other rfl hdec.symm) (by rwa [hserve])
  · have hserve := (serve_stream_of_no_token hno).trans hpush
    rw [← hserve]
    exact step_past_waiting hp hwait (other rfl hdec.symm) (by simp [hserve])

/-- Settles O40: a RESET is for no engine that waits, so it is taken past them all. -/
theorem resetEndsAStall : Obligations.ResetEndsAStall := by
  unfold Obligations.ResetEndsAStall
  intro s waiting rest hwait hp
  refine step_past_waiting hp hwait (fun q hq hnone => ?_) (fun f h => by cases h)
  rw [Request.engine?_eq_none_iff.1 hnone] at hq
  exact hwait.1 hq

/-! ## The stops of a step -/

/-- Settles O41: a stall needs a capacity and ends at a RESET, and a refusal is that of one request. -/
theorem stepStopsOnlyForCapacityOrReservedWords : Obligations.StepStopsOnlyForCapacityOrReservedWords := by
  unfold Obligations.StepStopsOnlyForCapacityOrReservedWords
  refine fun s => ⟨fun f h => ?_, fun x h => ?_⟩
  · obtain ⟨hreset, hstuck | ⟨hcap, hne⟩⟩ := takeFirst_fault h
    · exact absurd rfl hstuck
    · exact ⟨Option.ne_none_iff_exists'.1 hcap, hne, hreset⟩
  · obtain ⟨pre, r, rest, hp, hserve⟩ := takeFirst_refused h
    obtain ⟨port, data, hdata, rfl, rfl⟩ := serve_refused hserve
    exact ⟨port, data, hdata, rfl, by simp [hp]⟩

/-! ## The two engines in either order (R47, R145) -/

/-- Settles O47: each instruction does to its engine and to the history what it does with the other one's state changed. -/
theorem engineStepsCommute : Obligations.EngineStepsCommute := by
  unfold Obligations.EngineStepsCommute
  intro s a t i j hi hj hia hjt
  obtain ⟨haconfig, hapending⟩ := exec_keeps hia
  obtain ⟨htconfig, htpending⟩ := exec_keeps hjt
  obtain ⟨hadec, -⟩ := exec_enc_of_agree hi rfl rfl hia
  obtain ⟨htenc, b, evsj, hjb, hbdec, hbenc, htevents, hbevents⟩ := exec_dec_of_agree hj haconfig hadec hjt
  obtain ⟨hbconfig, hbpending⟩ := exec_keeps hjb
  obtain ⟨-, u, evsi, hiu, huenc, hudec, haevents, huevents⟩ := exec_enc_of_agree hi hbconfig.symm hbenc.symm hia
  obtain ⟨huconfig, hupending⟩ := exec_keeps hiu
  refine ⟨b, u, hjb, hiu, huenc.trans htenc.symm, hudec.trans hbdec, ?_, ?_, ?_⟩
  · rw [huconfig, hbconfig, htconfig, haconfig]
  · rw [hupending, hbpending, htpending, hapending]
  · rw [huevents, hbevents, htevents, haevents, List.append_assoc, List.append_assoc]
    exact List.perm_append_comm.append_left s.events

/-! ## The encoder's output against its input (R50) -/

theorem EncArm.exists_arm (e : EncState) (b : Byte) : ∃ bs v c, EncArm e b bs v c := by
  obtain ⟨bs, v, c, arm, -⟩ := execEncPush_arm b { State.reset with enc := e }
  exact ⟨bs, v, c, arm⟩

/-- What an arm emits and what the run it leaves would flush are at most 3 bytes more than the run before it would flush. -/
theorem EncArm.length_add_flush_le {e : EncState} {b : Byte} {bs : List Byte} {v c : Byte} (arm : EncArm e b bs v c) :
    bs.length + (flush v c).length ≤ 3 + (flush e.value e.count).length := by
  cases arm with
  | zeroIdle => rw [zeroEscape_length]
  | start => rw [flush_one, List.length_singleton, List.length_nil]; omega
  | extend =>
    have hflush := flush_length_le e.value (e.count + 1#8)
    rw [List.length_nil]
    omega
  | full => simp
  | switch => rw [flush_one, List.length_singleton]; omega
  | switchZero => simp [Nat.add_comm]

/-- From any state, three bytes a byte of input and the flush of the run in progress bound the rest of the output. -/
theorem encTail_length_le (value count : Byte) (xs : List Byte) :
    (encTail value count xs).length ≤ 3 * xs.length + (flush value count).length := by
  induction xs generalizing value count with
  | nil => simp [encTail]
  | cons b xs ih =>
    obtain ⟨bs, v, c, arm⟩ := EncArm.exists_arm { value := value, count := count, out := [] } b
    have hstep := arm.length_add_flush_le
    have hrest := ih v c
    rw [encTail_of_arm arm xs, List.length_append, List.length_cons]
    dsimp only at hstep
    omega

theorem encTail_zero_idle (value : Byte) (xs : List Byte) :
    encTail value 0#8 (ESC :: xs) = zeroEscape ++ encTail value 0#8 xs :=
  encTail_of_arm (e := { value := value, count := 0#8, out := [] }) (.zeroIdle rfl rfl) xs

theorem encTail_start (value : Byte) {b : Byte} (hb : b ≠ ESC) (xs : List Byte) :
    encTail value 0#8 (b :: xs) = encTail b 1#8 xs :=
  encTail_of_arm (e := { value := value, count := 0#8, out := [] }) (.start rfl hb) xs

/-- With no run in progress the bound is reached by bytes 0x00 only: another byte emits nothing, and its run flushes as 1. -/
theorem encTail_idle_length_eq_iff (value : Byte) (xs : List Byte) :
    (encTail value 0#8 xs).length = 3 * xs.length ↔ ∀ x ∈ xs, x = ESC := by
  induction xs with
  | nil => simp [encTail]
  | cons b xs ih =>
    rw [List.forall_mem_cons, List.length_cons]
    by_cases hb : b = ESC
    · subst hb
      rw [encTail_zero_idle, List.length_append, zeroEscape_length, ← ih, eq_self_iff_true, true_and]
      omega
    · have hrest := encTail_length_le b 1#8 xs
      rw [flush_one, List.length_singleton] at hrest
      rw [encTail_start value hb]
      exact iff_of_false (by omega) fun h => hb h.1

/-- Settles O53: the bound with no run in progress, and where it is reached. -/
theorem encodeAtMostTriples : Obligations.EncodeAtMostTriples := by
  unfold Obligations.EncodeAtMostTriples
  intro config xs ys hcap h
  obtain rfl : encTail 0#8 0#8 xs = ys := Option.some.inj ((encodeBytes_eq hcap xs).symm.trans h)
  exact ⟨encTail_length_le 0#8 0#8 xs, encTail_idle_length_eq_iff 0#8 xs⟩

/-! ## The decoder's output against its input (R50) -/

/-- How many bytes of an open token the decoder has taken. -/
def DecPhase.taken : DecPhase → Nat
  | .A => 0
  | .B => 1
  | .C => 2

theorem DecArm.exists_arm (policy : ZeroLengthPolicy) (d : DecState) (b : Byte) :
    ∃ bs st l p, DecArm policy d b bs st l p := by
  obtain ⟨bs, st, l, p, arm, -⟩ := execDecPush_arm b
    { State.reset with config := { outCapacity := none, zeroLengthPolicy := policy }, dec := d }
  exact ⟨bs, st, l, p, arm⟩

/-- A byte brings 85 bytes of output, held until its token is whole: the 255 of a RUN are those of its three bytes. -/
theorem DecArm.length_add_taken_le {policy : ZeroLengthPolicy} {d : DecState} {b : Byte} {bs : List Byte} {st : DecPhase}
    {l : Byte} {p : Nat} (arm : DecArm policy d b bs st l p) :
    bs.length + 85 * st.taken ≤ 85 * (1 + d.state.taken) := by
  cases arm with
  | literal hs | escape hs | length hs | zeroLengthNone hs | zeroLengthReread hs => simp [hs, DecPhase.taken]
  | value hs =>
    rw [hs, runBytes_length]
    exact Nat.le_of_lt_succ d.len.isLt

theorem decTail_length_le {policy : ZeroLengthPolicy} {state : DecPhase} {len : Byte} {escPos pos : Nat}
    {ys xs : List Byte} (h : decTail policy state len escPos pos ys = .ok xs) :
    xs.length ≤ 85 * (ys.length + state.taken) := by
  induction ys generalizing state len escPos pos xs with
  | nil => cases state <;> cases h; simp
  | cons b ys ih =>
    obtain ⟨bs, st, l, p, arm⟩ := DecArm.exists_arm policy
      { DecState.reset with state := state, len := len, escPos := escPos, pos := pos } b
    have hstep := arm.length_add_taken_le
    rw [decTail_of_arm arm ys] at h
    cases hrest : decTail policy st l p (pos + 1) ys with
    | error info => rw [hrest] at h; cases h
    | ok xs' =>
      rw [hrest] at h
      cases h
      have hxs' := ih hrest
      rw [List.length_append, List.length_cons]
      dsimp only at hstep
      omega

/-- A whole RUN token at a boundary, of any length but 0x00. -/
theorem decTail_run (policy : ZeroLengthPolicy) (len : Byte) (escPos pos : Nat) {l : Byte} (hl : l ≠ ESC) (v : Byte)
    (ys : List Byte) :
    decTail policy .A len escPos pos (ESC :: l :: v :: ys) =
      (decTail policy .A 0#8 0 (pos + 3) ys).map (runBytes v l ++ ·) := by
  simp [decTail, hl]

theorem decTail_runs (policy : ZeroLengthPolicy) (len : Byte) (escPos pos : Nat) {l : Byte} (hl : l ≠ ESC) (v : Byte)
    (n : Nat) :
    decTail policy .A len escPos pos (List.replicate n [ESC, l, v]).flatten =
      .ok (List.replicate (l.toNat * n) v) := by
  induction n generalizing len escPos pos with
  | zero => rfl
  | succ n ih =>
    have hrun : (List.replicate (n + 1) [ESC, l, v]).flatten = ESC :: l :: v :: (List.replicate n [ESC, l, v]).flatten := rfl
    rw [hrun, decTail_run policy len escPos pos hl, ih, Nat.mul_succ, Nat.add_comm, List.replicate_add]
    rfl

/-- Settles O54: 85 bytes a byte from a token boundary, and the RUN tokens of length 255. -/
theorem decodeAtMostEightyFiveTimes : Obligations.DecodeAtMostEightyFiveTimes := by
  unfold Obligations.DecodeAtMostEightyFiveTimes
  refine fun config hcap => ⟨fun ys xs h => ?_, fun n v => ?_⟩
  · exact decTail_length_le (Option.some.inj ((decodeBytes_eq hcap ys).symm.trans h))
  · rw [decodeBytes_eq hcap]
    exact congrArg some (decTail_runs _ _ _ _ (l := 255#8) (by decide) v n)

/-! ## Runs until nothing is pending -/

/-- Log 3: with nothing pending, the steps of a run are idle. -/
theorem core_run_of_no_pending {s : State} (h : s.pending = []) (n : Nat) :
    Sys2Proof.core.run n s = .next { s with pending := [] } := by
  have hidle : step s = .next s := by rw [step, h, takeFirst_nil_nil]
  rw [← h]
  induction n with
  | zero => rfl
  | succ n ih => rw [core_run_succ, hidle]; exact ih

theorem requestsSize_cons (r : Request) (rs : List Request) : requestsSize (r :: rs) = requestsSize [r] + requestsSize rs :=
  requestsSize_append [r] rs

theorem requestsSize_singleton_pos (r : Request) : 0 < requestsSize [r] := by
  cases r <;> simp [requestsSize]

theorem eq_nil_of_requestsSize_eq_zero {rs : List Request} (h : requestsSize rs = 0) : rs = [] := by
  cases rs with
  | nil => rfl
  | cons r rs =>
    have hr := requestsSize_singleton_pos r
    rw [requestsSize_cons] at h
    omega

/-- A request taken is one less, or one byte less of a stream. -/
theorem serve_next_requestsSize_lt {skipped rest : List Request} {r : Request} {s t : State}
    (h : serve skipped rest r s = .next t) : requestsSize t.pending < requestsSize (skipped ++ r :: rest) := by
  have hr := requestsSize_singleton_pos r
  rw [requestsSize_append, requestsSize_cons]
  rcases serve_next h with ⟨p, c, rfl, he⟩ | ⟨first, more, i, b, bs, after, rfl, -, hbytes, he⟩ | ⟨rfl, rfl⟩
  · rw [(exec_keeps he).2, requestsSize_append]
    omega
  · have hlen : more.length = bs.length + after.length := by simpa using congrArg List.length hbytes
    have hone : requestsSize [.stream first more] = more.length + 1 := rfl
    rw [(exec_keeps he).2, requestsSize_append, requestsSize_streamRequest, requestsSize_append, hone]
    omega
  · rw [State.assertReset_pending]
    dsimp only
    omega

/-- A step with a next state leaves less pending, if anything was. -/
theorem step_next_requestsSize_lt {s t : State} (h : step s = .next t) (hne : s.pending ≠ []) :
    requestsSize t.pending < requestsSize s.pending := by
  rcases step_next h with ⟨h0, -⟩ | ⟨pre, r, rest, hp, hserve⟩
  · exact absurd h0 hne
  · rw [hp]
    exact serve_next_requestsSize_lt hserve

/-- With an unbounded buffer and no reserved word issued a step has a next state (R49, R58). -/
theorem step_has_next {s : State} (hcap : s.config.outCapacity = none) (hreserved : s.NoReservedIssued) :
    ∃ t, step s = .next t := by
  obtain ⟨hfault, hrefused⟩ := stepStopsOnlyForCapacityOrReservedWords s
  cases hs : step s with
  | next t => exact ⟨t, rfl⟩
  | fault f =>
    obtain ⟨⟨cap, hsome⟩, -⟩ := hfault f hs
    cases hcap.symm.trans hsome
  | refused x =>
    obtain ⟨port, data, hdata, -, hmem⟩ := hrefused x hs
    exact absurd hmem (hreserved port data hdata)

/-- A run of at least as many steps as there are commands, stream bytes and resets pending takes them all: each step has a
next state, keeps the premises and leaves less. -/
theorem safeRun_takes_all {n : Nat} {s : State} (hsize : requestsSize s.pending ≤ n) (hcap : s.config.outCapacity = none)
    (hreserved : s.NoReservedIssued) : ∃ t, SafeRun n s t ∧ t.pending = [] := by
  induction n generalizing s with
  | zero => exact ⟨s, rfl, eq_nil_of_requestsSize_eq_zero (Nat.le_zero.1 hsize)⟩
  | succ n ih =>
    by_cases hp : s.pending = []
    · exact ⟨_, core_run_of_no_pending hp _, rfl⟩
    obtain ⟨t, hstep⟩ := step_has_next hcap hreserved
    obtain ⟨-, hconfig, -, hcommands⟩ := stepFrame s t hstep
    have hless := step_next_requestsSize_lt hstep hp
    obtain ⟨u, hrun, hu⟩ := ih (by omega) (hconfig ▸ hcap)
      (fun port data hdata hmem => hreserved port data hdata (hcommands port _ hmem))
    refine ⟨u, ?_, hu⟩
    rw [SafeRun, core_run_succ, hstep]
    exact hrun

/-- Settles O59: as many steps as the requests' size are enough. -/
theorem everyIssuedRequestIsTaken : Obligations.EveryIssuedRequestIsTaken := by
  unfold Obligations.EveryIssuedRequestIsTaken
  exact fun _ hcap hreserved => safeRun_takes_all le_rfl hcap hreserved

/-! ## A stream and its pushes (R41, R46, R60) -/

/-- Stream bytes with no step are stuck at the push of their first byte. -/
theorem serve_stream_fault {skipped rest : List Request} {first : Byte} {more : List Byte} {s : State} {f : Fault}
    (h : serve skipped rest (.stream first more) s = .fault f) :
    exec (.decPush first) { s with pending := streamRequest more ++ (skipped ++ rest) } = .fault f := by
  simp only [serve, serveStream] at h
  cases hp : parseToken (first :: more) with
  | error x => rw [hp] at h; exact h
  | ok ia =>
    obtain ⟨i, after⟩ := ia
    rw [hp] at h
    dsimp only at h
    cases hx : exec i { s with pending := streamRequest after ++ (skipped ++ rest) } with
    | next t => rw [hx] at h; cases h
    | refused x => rw [hx] at h; cases h
    | fault g => rw [hx] at h; exact h

/-- A step at a stream alone presents some of its first bytes, or is stuck at the first. -/
theorem step_stream {s : State} {first : Byte} {more : List Byte} (hp : s.pending = [.stream first more]) :
    (∃ b bs after t, first :: more = b :: bs ++ after ∧
      presentBytes (b :: bs) { s with pending := streamRequest after } = .next t ∧ step s = .next t) ∨
    (∃ f, execDecPush first { s with pending := streamRequest more } = .fault f ∧ step s = .fault f) := by
  cases hserve : serve [] [] (.stream first more) s with
  | next t =>
    have hstep : step s = .next t := (step_head hp (by simp [hserve])).trans hserve
    rcases serve_next hserve with ⟨p, c, hr, -⟩ | ⟨_, _, i, b, bs, after, hr, hi, hbytes, he⟩ | ⟨hr, -⟩
    · cases hr
    · cases hr
      rw [exec_of_presentedBytes hi, List.append_nil, List.append_nil] at he
      exact .inl ⟨b, bs, after, t, hbytes, he, hstep⟩
    · cases hr
  | refused x =>
    obtain ⟨_, _, _, hr, -⟩ := serve_refused hserve
    cases hr
  | fault f =>
    have hpush := serve_stream_fault hserve
    obtain ⟨-, e, -, rfl⟩ := serve_fault hserve
    rw [List.append_nil, List.append_nil] at hpush
    refine .inr ⟨_, hpush, ?_⟩
    have hw : (Request.stream first more).waitsFor [] = false := rfl
    rw [step, hp, takeFirst_cons, hw, hserve]
    rfl

/-- A run over a stream alone, of at least as many steps as bytes, presents the bytes. -/
theorem core_run_stream {n : Nat} {bs : List Byte} {s : State} (hn : bs.length ≤ n) (hp : s.pending = streamRequest bs) :
    Sys2Proof.core.run n s = presentBytes bs { s with pending := [] } := by
  induction n generalizing bs s with
  | zero =>
    obtain rfl := List.length_eq_zero_iff.1 (Nat.le_zero.1 hn)
    exact core_run_of_no_pending hp 0
  | succ n ih =>
    cases bs with
    | nil => exact core_run_of_no_pending hp (n + 1)
    | cons first more =>
      rw [core_run_succ]
      rcases step_stream hp with ⟨b, bs, after, t, hbytes, hpresent, hstep⟩ | ⟨f, hpush, hstep⟩
      · obtain ⟨-, -, htpending, -⟩ := presentBytes_keeps hpresent
        have hafter : after.length ≤ n := by
          have hlen : more.length = bs.length + after.length := by simpa using congrArg List.length hbytes
          rw [List.length_cons] at hn
          omega
        have hidle := presentBytes_pending (b :: bs) [] { s with pending := streamRequest after }
        rw [hpresent] at hidle
        rw [hstep, hbytes, presentBytes_append, hidle]
        exact ih hafter htpending
      · have hidle := execDecPush_pending first [] { s with pending := streamRequest more }
        rw [hpush] at hidle
        rw [hstep, presentBytes_cons, hidle]
        rfl

/-- Settles O57: the run presents the bytes, and so do the pushes. -/
theorem aStreamRunsAsItsPushes : Obligations.AStreamRunsAsItsPushes := by
  unfold Obligations.AStreamRunsAsItsPushes
  intro s b more hp
  rw [execAll_decPush]
  exact core_run_stream (bs := b :: more) le_rfl hp

end Sys2Proof.Machine

namespace Sys2Proof.Machine

/-! ## Encodings and their instructions (R55 to R58, R61, R62, R65) -/

/-- Bytes that are exactly one token decode to it. -/
theorem decode_token_of_parseToken {bytes : List Byte} {i : Instr} (h : parseToken bytes = .ok (i, [])) :
    decode (.token bytes) = .ok i := by
  simp only [decode, h]

/-- The word of a well-formed command stands for it on its port. -/
theorem decodeCommand_of_encode {i : Instr} {port : Engine} {c : Cmd9} (h : encode i = .command port c)
    (hw : i.wf = true) : decodeCommand port c = i := by
  cases i <;> cases h
  case encPush b => exact decodeCommand_push_enc b
  case encEnd => exact decodeCommand_end_enc
  case decPush b => exact decodeCommand_push_dec b
  case decEnd => exact decodeCommand_end_dec
  case reservedCommand data => exact decodeCommand_endWord port (by simpa [Instr.wf] using hw)

/-- Settles O32: a command is read back from its word, and a token from its bytes with nothing after them. -/
theorem decodeOfEncodeIsTheInstruction : Obligations.DecodeOfEncodeIsTheInstruction := by
  unfold Obligations.DecodeOfEncodeIsTheInstruction
  intro i hw
  cases hi : encode i with
  | command port c => exact congrArg Except.ok (decodeCommand_of_encode hi hw)
  | token bytes =>
    have hparse := parseToken_of_encode hi hw []
    rw [List.append_nil] at hparse
    exact decode_token_of_parseToken hparse

/-- What a command word stands for is well formed, and its word is that one. -/
theorem encode_decodeCommand (port : Engine) (c : Cmd9) :
    (decodeCommand port c).wf = true ∧ encode (decodeCommand port c) = .command port c := by
  rcases decodeCommand_cases port c with ⟨b, rfl, hd⟩ | ⟨rfl, hd⟩ | ⟨d, hne, rfl, hd⟩
  · rw [hd]
    cases port <;> exact ⟨rfl, rfl⟩
  · rw [hd]
    cases port <;> exact ⟨rfl, rfl⟩
  · rw [hd]
    exact ⟨by simpa [Instr.wf] using hne, rfl⟩

/-- Settles O33: for a word by its three kinds, for bytes by the one token they are. -/
theorem encodeOfDecodeIsTheWord : Obligations.EncodeOfDecodeIsTheWord := by
  unfold Obligations.EncodeOfDecodeIsTheWord
  intro e i h
  cases e with
  | command port c =>
    cases h
    exact encode_decodeCommand port c
  | token bytes =>
    obtain ⟨b, bs, hi, rfl, hw⟩ := parseToken_ok (parseToken_of_decode_token h)
    rw [List.append_nil]
    exact ⟨hw, hi⟩

/-- Settles O26: the reserved word decodes to its command, and its arm answers refused. -/
theorem reservedCommandIsRefused : Obligations.ReservedCommandIsRefused := by
  unfold Obligations.ReservedCommandIsRefused
  exact fun s port data hdata => ⟨decodeCommand_endWord port hdata, exec_reservedCommand port data s⟩

/-- Settles O31: each word written out is the encoding of its well-formed instruction. -/
theorem wordsStandForTheirInstructions : Obligations.WordsStandForTheirInstructions := by
  unfold Obligations.WordsStandForTheirInstructions
  have read := decodeOfEncodeIsTheInstruction
  exact ⟨read (.encPush 0x41#8) rfl, read (.decPush 0xFF#8) rfl, read .encEnd rfl, read .decEnd rfl,
    read (.reservedCommand .dec 0x01#8) rfl, read (.lit 0x4D#8) rfl, read (.run 23#8 0x3D#8) rfl,
    read (.run0 0x41#8) rfl⟩

/-! ## Streams as tokens and a tail (R60, R64) -/

/-- A token's bytes are its encoding. -/
theorem encode_of_isToken {i : Instr} (h : IsToken i) : encode i = .token (tokenBytes i) := by
  obtain ⟨-, ⟨b, rfl⟩ | ⟨l, v, rfl⟩ | ⟨v, rfl⟩⟩ := h <;> rfl

theorem tokenBytes_of_encode {i : Instr} {bs : List Byte} (h : encode i = .token bs) : tokenBytes i = bs := by
  rw [tokenBytes, h]

/-- A well-formed instruction that is bytes of the stream is a token. -/
theorem isToken_of_encode {i : Instr} {bs : List Byte} (h : encode i = .token bs) (hw : i.wf = true) : IsToken i := by
  refine ⟨hw, ?_⟩
  cases i <;> cases h
  case lit b => exact .inl ⟨b, rfl⟩
  case run l v => exact .inr (.inl ⟨l, v, rfl⟩)
  case run0 v => exact .inr (.inr ⟨v, rfl⟩)

/-- A token at the front of a stream is the first of its parse. -/
theorem parseStream_tokenBytes_append {i : Instr} (h : IsToken i) (ys : List Byte) :
    parseStream (tokenBytes i ++ ys) = (i :: (parseStream ys).1, (parseStream ys).2) :=
  parseStream_of_parseToken (parseToken_of_encode (encode_of_isToken h) h.1 ys)

/-- A tail opens with no token. -/
theorem parseStream_of_isTail {ys : List Byte} (h : IsTail ys) : parseStream ys = ([], ys) := by
  rcases h with rfl | rfl | ⟨l, rfl⟩ <;> exact parseStream_of_error rfl

/-- What no token opens is a tail. -/
theorem isTail_of_parseToken_error {ys : List Byte} {r : DecodeReject} (h : parseToken ys = .error r) : IsTail ys := by
  cases ys with
  | nil => exact .inl rfl
  | cons b rest =>
    obtain ⟨rfl, hlen⟩ := parseToken_error h
    match rest, hlen with
    | [], _ => exact .inr (.inl rfl)
    | [l], _ => exact .inr (.inr ⟨l, rfl⟩)

/-- Induction along a stream: a tail, or a token and the stream after it. -/
theorem stream_induction {P : List Byte → Prop} (tail : ∀ ys, IsTail ys → P ys)
    (token : ∀ i ys, IsToken i → P ys → P (tokenBytes i ++ ys)) (ys : List Byte) : P ys := by
  cases hparse : parseToken ys with
  | error r => exact tail ys (isTail_of_parseToken_error hparse)
  | ok parsed =>
    obtain ⟨i, after⟩ := parsed
    obtain ⟨b, bs, hi, rfl, hw⟩ := parseToken_ok hparse
    rw [← tokenBytes_of_encode hi]
    exact token i after (isToken_of_encode hi hw) (stream_induction tail token after)
termination_by ys.length

/-- The bytes of a stream's parse, joined, are the stream. -/
theorem flatten_parseStream (ys : List Byte) :
    ((parseStream ys).1.map tokenBytes).flatten ++ (parseStream ys).2 = ys := by
  induction ys using stream_induction with
  | tail ys h => rw [parseStream_of_isTail h]; rfl
  | token i ys h ih => simp [parseStream_tokenBytes_append h, ih]

theorem isToken_of_mem_parseStream {ys : List Byte} : ∀ i ∈ (parseStream ys).1, IsToken i := by
  induction ys using stream_induction with
  | tail ys h => simp [parseStream_of_isTail h]
  | token i ys h ih =>
    rw [parseStream_tokenBytes_append h]
    exact List.forall_mem_cons.2 ⟨h, ih⟩

theorem isTail_parseStream (ys : List Byte) : IsTail (parseStream ys).2 := by
  induction ys using stream_induction with
  | tail ys h => rwa [parseStream_of_isTail h]
  | token i ys h ih => rwa [parseStream_tokenBytes_append h]

/-- Tokens and a tail are the parse of their bytes. -/
theorem parseStream_flatten_append {tokens : List Instr} {tail : List Byte} (htokens : ∀ i ∈ tokens, IsToken i)
    (htail : IsTail tail) : parseStream ((tokens.map tokenBytes).flatten ++ tail) = (tokens, tail) := by
  induction tokens with
  | nil => exact parseStream_of_isTail htail
  | cons i tokens ih =>
    obtain ⟨hi, htokens⟩ := List.forall_mem_cons.1 htokens
    rw [List.map_cons, List.flatten_cons, List.append_assoc, parseStream_tokenBytes_append hi, ih htokens]

/-- Settles O34: existence by induction along the stream, uniqueness by induction on the tokens. -/
theorem everyStreamParsesToTokens : Obligations.EveryStreamParsesToTokens := by
  unfold Obligations.EveryStreamParsesToTokens
  refine fun ys => ⟨flatten_parseStream ys, isToken_of_mem_parseStream, isTail_parseStream ys, ?_⟩
  rintro tokens tail htokens htail rfl
  exact parseStream_flatten_append htokens htail

/-! ## The encoder's output as canonical tokens (R66, R92 (b) as log 17 reads it) -/

/-- R66: the bytes of canonical tokens in a row. -/
def IsCanonical (bs : List Byte) : Prop :=
  ∃ tokens : List Instr, (∀ i ∈ tokens, CanonicalToken i) ∧ (tokens.map tokenBytes).flatten = bs

theorem isCanonical_nil : IsCanonical [] := ⟨[], by simp, rfl⟩

theorem isCanonical_append {bs cs : List Byte} (hb : IsCanonical bs) (hc : IsCanonical cs) :
    IsCanonical (bs ++ cs) := by
  obtain ⟨is, his, rfl⟩ := hb
  obtain ⟨js, hjs, rfl⟩ := hc
  exact ⟨is ++ js, List.forall_mem_append.2 ⟨his, hjs⟩, by simp⟩

theorem isCanonical_tokenBytes {i : Instr} (h : CanonicalToken i) : IsCanonical (tokenBytes i) :=
  ⟨[i], by simpa using h, by simp⟩

theorem isToken_of_canonicalToken {i : Instr} (h : CanonicalToken i) : IsToken i := by
  rcases h with ⟨v, hv, rfl⟩ | rfl | ⟨l, v, hl, -, rfl⟩
  · exact isToken_of_encode rfl (by simpa [Instr.wf] using hv)
  · exact isToken_of_encode rfl rfl
  · have hne : l ≠ 0#8 := by rintro rfl; simp at hl
    exact isToken_of_encode rfl (by simpa [Instr.wf] using hne)

/-- Canonical bytes parse into canonical tokens and no tail. -/
theorem parseStream_of_isCanonical {bs : List Byte} (h : IsCanonical bs) :
    (parseStream bs).2 = [] ∧ ∀ i ∈ (parseStream bs).1, CanonicalToken i := by
  obtain ⟨tokens, htokens, rfl⟩ := h
  have hparse := parseStream_flatten_append (fun i hi => isToken_of_canonicalToken (htokens i hi)) (.inl rfl)
  rw [List.append_nil] at hparse
  rw [hparse]
  exact ⟨rfl, htokens⟩

theorem isCanonical_zeroEscape : IsCanonical zeroEscape := isCanonical_tokenBytes (i := .run 1#8 0#8) (.inr (.inl rfl))

theorem isCanonical_literal {v : Byte} (hv : v ≠ ESC) : IsCanonical [v] :=
  isCanonical_tokenBytes (i := .lit v) (.inl ⟨v, hv, rfl⟩)

theorem isCanonical_run {l v : Byte} (hl : 3 ≤ l.toNat) (hv : v ≠ ESC) : IsCanonical [ESC, l, v] :=
  isCanonical_tokenBytes (i := .run l v) (.inr (.inr ⟨l, v, hl, hv, rfl⟩))

/-- The flush of a run of a non-zero byte is literals for 1 and 2 and a RUN from 3 on; no run flushes to nothing. -/
theorem isCanonical_flush {v c : Byte} (h : c = 0#8 ↔ v = 0#8) : IsCanonical (flush v c) := by
  rcases flush_cases v c with ⟨-, hf⟩ | ⟨rfl, hf⟩ | ⟨rfl, hf⟩ | ⟨hc, hf⟩ <;> rw [hf]
  · exact isCanonical_nil
  · exact isCanonical_literal (mt h.2 (by decide))
  · have hv := isCanonical_literal (mt h.2 (by decide))
    exact isCanonical_append hv hv
  · exact isCanonical_run hc (mt h.2 (by rintro rfl; simp at hc))

/-- Every arm of ENC.PUSH emits canonical tokens. -/
theorem EncArm.isCanonical {e : EncState} {b : Byte} {bs : List Byte} {v c : Byte} (arm : EncArm e b bs v c)
    (hunset : e.count = 0#8 ↔ e.value = 0#8) : IsCanonical bs := by
  cases arm with
  | zeroIdle => exact isCanonical_zeroEscape
  | start | extend => exact isCanonical_nil
  | full hc hb hge => exact isCanonical_run (by decide) (mt hunset.2 hc)
  | switch => exact isCanonical_flush hunset
  | switchZero => exact isCanonical_append (isCanonical_flush hunset) isCanonical_zeroEscape

/-- From any run R22 and R23 allow, the rest of the output is canonical tokens. -/
theorem isCanonical_encTail (xs : List Byte) {value count : Byte} (hle : count.toNat ≤ 254)
    (hunset : count = 0#8 ↔ value = 0#8) : IsCanonical (encTail value count xs) := by
  induction xs generalizing value count with
  | nil => exact isCanonical_flush hunset
  | cons b xs ih =>
    obtain ⟨bs, v, c, arm⟩ := EncArm.exists_arm { value := value, count := count, out := [] } b
    obtain ⟨hle', hunset'⟩ := arm.keeps_run hle hunset
    rw [encTail_of_arm arm xs]
    exact isCanonical_append (arm.isCanonical hunset) (ih hle' hunset')

/-- Settles O52: an encoder call emits canonical tokens arm by arm, and they are the parse of their bytes. -/
theorem encodeEmitsOnlyCanonicalTokens : Obligations.EncodeEmitsOnlyCanonicalTokens := by
  unfold Obligations.EncodeEmitsOnlyCanonicalTokens
  intro config xs ys hcap h
  obtain rfl : encTail 0#8 0#8 xs = ys := Option.some.inj ((encodeBytes_eq hcap xs).symm.trans h)
  exact parseStream_of_isCanonical (isCanonical_encTail xs (by decide) Iff.rfl)

/-! ## Decoding by tokens (R60, R109, R113 (b)) -/

/-- R109, R121: the outcome of a call of `n` bytes whose tokens expand to `out`, by the tail of its stream. -/
def tailOutcome (n : Nat) (out : List Byte) (tail : List Byte) : Except MalformedStream (List Byte) :=
  match tail with
  | [] => .ok out
  | [_] => .error { kind := .missingLength, escapeOffset := n - 1, inputLength := n }
  | _ => .error { kind := .missingValue, escapeOffset := n - 2, inputLength := n }

/-- The outcome of a stream read from input offset `pos` on, by its parse. -/
def streamOutcome (pos : Nat) (ys : List Byte) : Except MalformedStream (List Byte) :=
  tailOutcome (pos + ys.length) ((parseStream ys).1.map tokenExpansion).flatten (parseStream ys).2

theorem tailOutcome_append (n : Nat) (bs out tail : List Byte) :
    tailOutcome n (bs ++ out) tail = (tailOutcome n out tail).map (bs ++ ·) := by
  match tail with
  | [] | [_] | _ :: _ :: _ => rfl

/-- A token adds its expansion in front of the outcome of what follows it. -/
theorem streamOutcome_token {i : Instr} (h : IsToken i) (pos : Nat) (ys : List Byte) :
    streamOutcome pos (tokenBytes i ++ ys) =
      (streamOutcome (pos + (tokenBytes i).length) ys).map (tokenExpansion i ++ ·) := by
  rw [streamOutcome, parseStream_tokenBytes_append h, List.map_cons, List.flatten_cons, tailOutcome_append,
    List.length_append, ← Nat.add_assoc]
  rfl

/-- Under EmitNone a token at a boundary emits its expansion and ends at a boundary. -/
theorem decTail_token {i : Instr} (h : IsToken i) (len : Byte) (escPos pos : Nat) (ys : List Byte) :
    ∃ len' escPos', decTail .emitNone .A len escPos pos (tokenBytes i ++ ys) =
      (decTail .emitNone .A len' escPos' (pos + (tokenBytes i).length) ys).map (tokenExpansion i ++ ·) := by
  obtain ⟨hw, ⟨b, rfl⟩ | ⟨l, v, rfl⟩ | ⟨v, rfl⟩⟩ := h
  · have hb : b ≠ ESC := by simpa [Instr.wf] using hw
    exact ⟨len, escPos, if_pos hb⟩
  · exact ⟨0#8, 0, decTail_run .emitNone len escPos pos (by simpa [Instr.wf] using hw) v ys⟩
  · exact ⟨0#8, 0, rfl⟩

/-- A tail ends the call at a boundary or in the token it opens. -/
theorem decTail_tail {ys : List Byte} (h : IsTail ys) (len : Byte) (escPos pos : Nat) :
    decTail .emitNone .A len escPos pos ys = streamOutcome pos ys := by
  rw [streamOutcome, parseStream_of_isTail h]
  rcases h with rfl | rfl | ⟨l, rfl⟩
  · rfl
  · rfl
  · by_cases hl : l = ESC <;> simp [decTail, tailOutcome, hl]

/-- Under EmitNone a decoder call from a boundary comes to what its tokens and tail say. -/
theorem decTail_eq_streamOutcome (ys : List Byte) (len : Byte) (escPos pos : Nat) :
    decTail .emitNone .A len escPos pos ys = streamOutcome pos ys := by
  induction ys using stream_induction generalizing len escPos pos with
  | tail ys h => exact decTail_tail h len escPos pos
  | token i ys h ih =>
    obtain ⟨len', escPos', hstep⟩ := decTail_token h len escPos pos ys
    rw [hstep, ih, streamOutcome_token h]

/-- Settles O55: a call from the reset state is read from offset 0, token by token. -/
theorem decodeExpandsTheTokens : Obligations.DecodeExpandsTheTokens := by
  unfold Obligations.DecodeExpandsTheTokens
  intro config ys hcap hpolicy
  rw [decodeBytes_eq hcap, hpolicy, decTail_eq_streamOutcome, streamOutcome, Nat.zero_add]
  rfl

/-! ## Tokens at a boundary (R61, R62, R65) -/

/-- The next state of a DEC.PUSH that takes the arm with these results. -/
def State.afterDecArm (bs : List Byte) (st : DecPhase) (l : Byte) (p : Nat) (s : State) : State :=
  { s with dec := { s.dec with state := st, len := l, escPos := p, pos := s.dec.pos + 1, out := s.dec.out ++ bs } }

/-- DEC.PUSH takes the arm whose condition holds, if its bytes fit. -/
theorem execDecPush_of_arm {s : State} {b : Byte} {bs : List Byte} {st : DecPhase} {l : Byte} {p : Nat}
    (arm : DecArm s.config.zeroLengthPolicy s.dec b bs st l p) (hf : fits s.config.outCapacity s.dec.out bs = true) :
    execDecPush b s = .next (s.afterDecArm bs st l p) := by
  have emit : ∀ k, emitThen .dec bs k s = .next (k (s.appendOut .dec bs)) := fun k => emitThen_of_fits k hf
  unfold execDecPush
  cases arm with
  | literal hs hb =>
    simp only [hs, if_pos hb, armLiteral, emit]
    rw [State.afterDecArm, ← hs]
    rfl
  | escape hs hb =>
    simp only [hs, if_neg (not_not_intro hb), armEscape, emit]
    rfl
  | length hs hb =>
    simp only [hs, if_pos hb, armLength, emit]
    rfl
  | zeroLengthNone hs hb hp =>
    simp only [hs, if_neg (not_not_intro hb), armZeroLength, hp, emit]
    rfl
  | zeroLengthReread hs hb hp =>
    simp only [hs, if_neg (not_not_intro hb), armZeroLength, hp, emit]
    rw [State.afterDecArm, ← hs]
    rfl
  | value hs =>
    simp only [hs, armValue, emit]
    rfl

/-- Bytes presented from a state where the first one's arm is known. -/
theorem presentBytes_cons_of_arm {s : State} {b : Byte} {bs more : List Byte} {st : DecPhase} {l : Byte} {p : Nat}
    {o : Host.Outcome State Fault Refusal} (arm : DecArm s.config.zeroLengthPolicy s.dec b bs st l p)
    (hf : fits s.config.outCapacity s.dec.out bs = true) (h : presentBytes more (s.afterDecArm bs st l p) = o) :
    presentBytes (b :: more) s = o := by
  rw [presentBytes_cons, execDecPush_of_arm arm hf]
  exact h

/-- Settles O22: LIT is the one push of its byte. -/
theorem litTokenStandsForItsByte : Obligations.LitTokenStandsForItsByte := by
  unfold Obligations.LitTokenStandsForItsByte
  intro s b hs hb hroom
  refine presentBytes_cons_of_arm (.literal hs hb) (fits_of_hasRoom (e := .dec) hroom rfl) ?_
  simp [State.afterDecArm, hs]

/-- Settles O23: the marker, the length and the value are pushed in turn. -/
theorem runTokenStandsForItsRepeat : Obligations.RunTokenStandsForItsRepeat := by
  unfold Obligations.RunTokenStandsForItsRepeat
  intro s length value hs hl hroom
  have hfits := fits_of_hasRoom hroom (runBytes_length value length)
  refine presentBytes_cons_of_arm (.escape hs rfl) (fits_nil ..) ?_
  refine presentBytes_cons_of_arm (.length rfl hl) (fits_nil ..) ?_
  refine presentBytes_cons_of_arm (.value rfl) (by simpa [State.afterDecArm] using hfits) ?_
  simp [State.afterDecArm, runBytes, hs]

/-- Settles O24: the second 0x00 goes by the policy, and the last byte is a value, a length or a zero length. -/
theorem run0TokenFollowsThePolicy : Obligations.Run0TokenFollowsThePolicy := by
  unfold Obligations.Run0TokenFollowsThePolicy
  refine fun s value hs => ⟨fun hp => ?_, fun hp hv => ?_, fun hp hv => ?_⟩
  all_goals refine presentBytes_cons_of_arm (.escape hs rfl) (fits_nil ..) ?_
  · refine presentBytes_cons_of_arm (.zeroLengthNone rfl rfl hp) (fits_nil ..) ?_
    refine presentBytes_cons_of_arm (.value rfl) (fits_nil ..) ?_
    simp [State.afterDecArm, hs]
  · refine presentBytes_cons_of_arm (.zeroLengthReread rfl rfl hp) (fits_nil ..) ?_
    refine presentBytes_cons_of_arm (.length rfl hv) (fits_nil ..) ?_
    simp [State.afterDecArm]
  · refine presentBytes_cons_of_arm (.zeroLengthReread rfl rfl hp) (fits_nil ..) ?_
    refine presentBytes_cons_of_arm (.zeroLengthReread rfl hv hp) (fits_nil ..) ?_
    simp [State.afterDecArm]

/-- Settles O25: a token presents its bytes, and so do pushes in a row. -/
theorem tokensAreTheirPushes : Obligations.TokensAreTheirPushes := by
  unfold Obligations.TokensAreTheirPushes
  exact fun s a b => ⟨(execAll_decPush [a] s).symm, (execAll_decPush [ESC, a, b] s).symm,
    (execAll_decPush [ESC, 0#8, a] s).symm⟩

/-! ## Steps at stream bytes and table words (logs 6, 8, 9) -/

/-- Settles O36: the stream is the head of the requests, and is served by its token or by its first push. -/
theorem stepTakesStreamBytesInOrder : Obligations.StepTakesStreamBytesInOrder := by
  unfold Obligations.StepTakesStreamBytesInOrder
  intro s b more rest hp
  have push : ∀ t, (∀ i after, parseToken (b :: more) = .ok (i, after) →
      ∃ f, exec i { s with pending := streamRequest after ++ rest } = .fault f) →
      exec (.decPush b) { s with pending := streamRequest more ++ rest } = .next t → step s = .next t := by
    intro t hno hpush
    have hserve : serve [] rest (.stream b more) s = .next t := (serve_stream_of_no_token hno).trans hpush
    exact (step_head hp (by simp [hserve])).trans hserve
  refine ⟨fun i after hparse => ⟨fun hstep => ?_, fun f t hfault => push t fun j after' hj => ?_⟩,
    fun r t herror => push t fun j after' hj => ?_⟩
  · have hserve : serve [] rest (.stream b more) s = _ := serve_stream_of_parseToken hparse hstep
    exact (step_head hp (by rwa [hserve])).trans hserve
  · cases hparse.symm.trans hj
    exact ⟨f, hfault⟩
  · cases herror.symm.trans hj

/-- A table word that decodes numbers an encoding that decodes. -/
theorem tableEncoding_of_decodeTableWord {nbits w : Nat} {i : Instr} (h : decodeTableWord nbits w = some i) :
    ∃ e, tableEncoding nbits w = some e ∧ decode e = .ok i := by
  unfold decodeTableWord at h
  split at h
  case h_1 => cases h
  case h_2 e he =>
    split at h
    case h_1 j hj => cases h; exact ⟨e, he, hj⟩
    case h_2 => cases h

theorem withFetchWord_of_tableEncoding {nbits w : Nat} {e : Encoding} (h : tableEncoding nbits w = some e) (s : State) :
    s.withFetchWord nbits w = { s with pending := encodingRequests e ++ s.pending } := by
  rw [State.withFetchWord, h]

/-- Settles O37: the placed word is the request whose turn it is, ahead of everything issued. -/
theorem stepRunsThePlacedTableWord : Obligations.StepRunsThePlacedTableWord := by
  unfold Obligations.StepRunsThePlacedTableWord
  intro s nbits w i h hstep
  obtain ⟨e, he, hdecode⟩ := tableEncoding_of_decodeTableWord h
  rw [withFetchWord_of_tableEncoding he]
  exact stepRunsTheDecodedInstruction _ e i s.pending hdecode rfl hstep

/-! ## Issued calls (R46, R68) -/

/-- Instructions issued by their encodings, one after the other. -/
def instrRequests (is : List Instr) : List Request := is.flatMap fun i => encodingRequests (encode i)

theorem instrRequests_cons (i : Instr) (is : List Instr) :
    instrRequests (i :: is) = encodingRequests (encode i) ++ instrRequests is := List.flatMap_cons

/-- Issued well-formed instructions run to where executing them in a row ends, a step each. -/
theorem core_run_instrRequests {is : List Instr} {rest : List Request} {s t : State} (hw : ∀ i ∈ is, i.wf = true)
    (hp : s.pending = instrRequests is ++ rest) (h : execAll is s = .next t) :
    Sys2Proof.core.run is.length s = .next { t with pending := rest } := by
  induction is generalizing s t with
  | nil =>
    obtain rfl : s.pending = rest := hp
    cases h
    rfl
  | cons i is ih =>
    obtain ⟨hi, hw⟩ := List.forall_mem_cons.1 hw
    cases hx : exec i s with
    | fault f => rw [execAll_cons, hx] at h; cases h
    | refused r => rw [execAll_cons, hx] at h; cases h
    | next u =>
      rw [execAll_cons_of_next is hx] at h
      have hexec : exec i { s with pending := instrRequests is ++ rest } =
          .next { u with pending := instrRequests is ++ rest } := by rw [exec_pending, hx]; rfl
      have hstep : step s = .next { u with pending := instrRequests is ++ rest } := by
        rw [← hexec]
        refine stepRunsTheDecodedInstruction s _ i _ (decodeOfEncodeIsTheInstruction i hi) ?_ (by simp [hexec])
        rw [hp, instrRequests_cons, List.append_assoc]
      rw [List.length_cons, core_run_succ, hstep]
      have hrest : execAll is { u with pending := instrRequests is ++ rest } =
          .next { t with pending := instrRequests is ++ rest } := by rw [execAll_pending, h]; rfl
      exact ih (t := { t with pending := instrRequests is ++ rest }) hw rfl hrest

/-- The pushes and the END of a call, issued as their words on a port, run to where executing them in a row ends. -/
theorem core_run_issuedCall {port : Engine} {push : Byte → Instr} {fin : Instr} {bs : List Byte} {rest : List Request}
    {s t : State} (hpush : ∀ b, (push b).wf = true ∧ encode (push b) = .command port (pushWord b))
    (hfin : fin.wf = true ∧ encode fin = .command port (endWord 0#8))
    (hp : s.pending = bs.map (fun b => .command port (pushWord b)) ++ .command port (endWord 0#8) :: rest)
    (h : execAll (bs.map push ++ [fin]) s = .next t) :
    Sys2Proof.core.run (bs.length + 1) s = .next { t with pending := rest } := by
  have hw : ∀ i ∈ bs.map push ++ [fin], i.wf = true := by
    simpa [or_imp, forall_and, hfin.1] using fun b _ => (hpush b).1
  have hissued : s.pending = instrRequests (bs.map push ++ [fin]) ++ rest := by
    simp [hp, instrRequests, List.flatMap_map, hpush, hfin.2, encodingRequests, ← List.map_eq_flatMap]
  simpa using core_run_instrRequests hw hissued h

/-- Settles O58: the call's commands run to where executing them ends, which is their Result. -/
theorem issuedEncoderCallRunsToItsResult : Obligations.IssuedEncoderCallRunsToItsResult := by
  unfold Obligations.IssuedEncoderCallRunsToItsResult
  intro s xs rest hcap hstart hp
  have hexec := execAll_encCall xs hcap
  rw [← State.reset_enc, ← hstart] at hexec
  have hrun := core_run_issuedCall (push := .encPush) (fun _ => ⟨rfl, rfl⟩) ⟨rfl, rfl⟩ hp hexec
  exact ⟨_, encodeBytes_eq hcap xs, by simpa [SafeRun, hstart] using hrun⟩

/-- With an unbounded buffer bytes presented have a next state (R111). -/
theorem presentBytes_unbounded (bs : List Byte) {s : State} (hcap : s.config.outCapacity = none) :
    ∃ t, presentBytes bs s = .next t := by
  cases h : presentBytes bs s with
  | next t => exact ⟨t, rfl⟩
  | fault f => exact absurd hcap (presentBytes_fault h).2
  | refused r => exact absurd h (presentBytes_ne_refused bs s r)

/-- With an unbounded buffer a step at a stream presents some of its first bytes and leaves the rest of them. -/
theorem step_stream_unbounded {s : State} {first : Byte} {more : List Byte} {rest : List Request}
    (hcap : s.config.outCapacity = none) (hp : s.pending = .stream first more :: rest) :
    ∃ b bs after t, first :: more = b :: bs ++ after ∧ presentBytes (b :: bs) s = .next t ∧
      step s = .next { t with pending := streamRequest after ++ rest } := by
  have hnofault : ∀ f, serve [] rest (.stream first more) s ≠ .fault f := fun f h => (serve_fault h).1 hcap
  have hhead := step_head hp hnofault
  cases hserve : serve [] rest (.stream first more) s with
  | fault f => exact absurd hserve (hnofault f)
  | refused x =>
    obtain ⟨_, _, _, hr, -⟩ := serve_refused hserve
    cases hr
  | next u =>
    rcases serve_next hserve with ⟨_, _, hr, -⟩ | ⟨_, _, i, b, bs, after, hr, hi, hbytes, he⟩ | ⟨hr, -⟩
    all_goals cases hr
    obtain ⟨t, ht⟩ := presentBytes_unbounded (b :: bs) hcap
    rw [exec_of_presentedBytes hi, presentBytes_pending, ht] at he
    exact ⟨b, bs, after, t, hbytes, ht, hhead.trans (hserve.trans he.symm)⟩

/-- With an unbounded buffer a stream whose turn it is is presented in at most a step a byte, with the requests behind
it left. -/
theorem core_run_stream_unbounded {n : Nat} {bs : List Byte} {rest : List Request} {s t : State} (hn : bs.length ≤ n)
    (hcap : s.config.outCapacity = none) (hp : s.pending = streamRequest bs ++ rest) (h : presentBytes bs s = .next t) :
    ∃ k ≤ bs.length, Sys2Proof.core.run k s = .next { t with pending := rest } := by
  induction n generalizing bs s t with
  | zero =>
    obtain rfl := List.length_eq_zero_iff.1 (Nat.le_zero.1 hn)
    obtain rfl : s.pending = rest := hp
    cases h
    exact ⟨0, le_rfl, rfl⟩
  | succ n ih =>
    cases bs with
    | nil =>
      obtain rfl : s.pending = rest := hp
      cases h
      exact ⟨0, le_rfl, rfl⟩
    | cons first more =>
      obtain ⟨b, bs, after, u, hbytes, hpresent, hstep⟩ := step_stream_unbounded hcap hp
      have hlen : more.length = bs.length + after.length := by simpa using congrArg List.length hbytes
      obtain ⟨-, hconfig, -⟩ := presentBytes_keeps hpresent
      rw [hbytes, presentBytes_append, hpresent] at h
      have hrest : presentBytes after { u with pending := streamRequest after ++ rest } =
          .next { t with pending := streamRequest after ++ rest } := by
        rw [presentBytes_pending]
        exact congrArg (withPending _) h
      rw [List.length_cons] at hn ⊢
      obtain ⟨k, hk, hrun⟩ := ih (by omega) (hconfig ▸ hcap) rfl hrest
      refine ⟨k + 1, by omega, ?_⟩
      rw [core_run_succ, hstep]
      exact hrun

/-- A call's bytes as a stream before END run to where its commands in a row end. -/
theorem core_run_streamCall {ys : List Byte} {rest : List Request} {s t : State} (hcap : s.config.outCapacity = none)
    (hp : s.pending = streamRequest ys ++ .command .dec (endWord 0#8) :: rest) (h : execAll (decCall ys) s = .next t) :
    ∃ k ≤ ys.length + 1, Sys2Proof.core.run k s = .next { t with pending := rest } := by
  obtain ⟨u, hu⟩ := presentBytes_unbounded ys hcap
  obtain ⟨k, hk, hrun⟩ := core_run_stream_unbounded le_rfl hcap hp hu
  rw [decCall, execAll_append, execAll_decPush, hu] at h
  have hend : execAll [.decEnd] { u with pending := instrRequests [.decEnd] ++ rest } =
      .next { t with pending := instrRequests [.decEnd] ++ rest } := by
    rw [execAll_pending]
    exact congrArg (withPending _) h
  refine ⟨k + 1, by omega, ?_⟩
  rw [core_run_add hrun]
  exact core_run_instrRequests (by simp [Instr.wf]) rfl hend

/-- Settles O60: as commands and as a stream the call ends where executing it does. -/
theorem issuedDecoderCallRunsToItsEvent : Obligations.IssuedDecoderCallRunsToItsEvent := by
  unfold Obligations.IssuedDecoderCallRunsToItsEvent
  intro s ys rest hcap hstart
  have hexec := execAll_decCall ys hcap
  have hout : s.dec.out = [] := congrArg DecState.out hstart
  have htail : decTail s.config.zeroLengthPolicy s.dec.state s.dec.len s.dec.escPos s.dec.pos ys =
      decTail s.config.zeroLengthPolicy .A 0#8 0 0 ys := by rw [hstart]; rfl
  rw [htail] at hexec
  refine ⟨{ afterDecCall (decTail s.config.zeroLengthPolicy .A 0#8 0 0 ys) s with pending := rest }, ?_, fun hp => ?_,
    fun hp => core_run_streamCall hcap hp hexec⟩
  · rw [decodeBytes_eq hcap]
    cases decTail s.config.zeroLengthPolicy .A 0#8 0 0 ys with
    | ok xs => exact .inl ⟨xs, rfl, by simp [afterDecCall, hout]⟩
    | error info =>
      obtain ⟨kind, escapeOffset, inputLength⟩ := info
      exact .inr ⟨_, rfl, by cases kind <;> rfl⟩
  · exact core_run_issuedCall (push := .decPush) (fun _ => ⟨rfl, rfl⟩) ⟨rfl, rfl⟩ hp hexec

end Sys2Proof.Machine

namespace Sys2Proof.Machine

/-! ## The arms of ENC.PUSH (R82 to R87) -/

/-- ENC.PUSH takes the arm whose condition holds, if its bytes fit. -/
theorem execEncPush_of_arm {s : State} {b : Byte} {bs : List Byte} {v c : Byte} (arm : EncArm s.enc b bs v c)
    (hf : fits s.config.outCapacity s.enc.out bs = true) :
    execEncPush b s = .next { s with enc := { value := v, count := c, out := s.enc.out ++ bs } } := by
  have emit : ∀ k, emitThen .enc bs k s = .next (k (s.appendOut .enc bs)) := fun k => emitThen_of_fits k hf
  have hlt254 : ∀ x : Byte, x < 254#8 ↔ x.toNat < 254 := fun x => BitVec.lt_def
  unfold execEncPush
  cases arm with
  | zeroIdle hc hb => rw [if_pos hc, if_pos hb]; exact emit _
  | start hc hb => rw [if_pos hc, if_neg hb]; exact emit _
  | extend hc hb hlt => rw [if_neg hc, if_pos hb, if_pos ((hlt254 _).2 hlt)]; exact emit _
  | full hc hb hge => rw [if_neg hc, if_pos hb, if_neg (by rw [hlt254]; omega)]; exact emit _
  | switch hc hv hb => rw [if_neg hc, if_neg hv, if_pos hb]; exact emit _
  | switchZero hc hv hb => rw [if_neg hc, if_neg hv, if_neg (not_not_intro hb)]; exact emit _

/-- Settles O4: the arm ArmZeroIdle, which leaves the run as it is. -/
theorem encPushEscapesAZeroByteWhenIdle : Obligations.EncPushEscapesAZeroByteWhenIdle := by
  unfold Obligations.EncPushEscapesAZeroByteWhenIdle
  exact fun s hc hroom => execEncPush_of_arm (.zeroIdle hc rfl) (fits_of_hasRoom hroom rfl)

/-- Settles O5: the arm ArmStart, which emits nothing. -/
theorem encPushStartsARun : Obligations.EncPushStartsARun := by
  unfold Obligations.EncPushStartsARun
  intro s b hc hb
  simpa using execEncPush_of_arm (.start hc hb) (fits_nil ..)

/-- Settles O6: the arm ArmExtend; from a count of at most 253 the sum does not wrap. -/
theorem encPushExtendsTheRun : Obligations.EncPushExtendsTheRun := by
  unfold Obligations.EncPushExtendsTheRun
  intro s hc hle
  have hpos : 0 < s.enc.count.toNat := by bv_omega
  have hnext : (s.enc.count + 1#8).toNat = s.enc.count.toNat + 1 := by bv_omega
  refine ⟨s.enc.count + 1#8, hnext, by omega, by omega, ?_⟩
  simpa using execEncPush_of_arm (.extend hc rfl (by omega)) (fits_nil ..)

/-- Settles O7: the arm ArmFull. -/
theorem encPushFlushesAFullRun : Obligations.EncPushFlushesAFullRun := by
  unfold Obligations.EncPushFlushesAFullRun
  intro s hcount hroom
  have hc : s.enc.count ≠ 0#8 := by bv_omega
  exact execEncPush_of_arm (.full hc rfl hcount.ge) (fits_of_hasRoom hroom rfl)

/-- Settles O8: the arm ArmSwitch. -/
theorem encPushSwitchesToAnotherRun : Obligations.EncPushSwitchesToAnotherRun := by
  unfold Obligations.EncPushSwitchesToAnotherRun
  exact fun s b hc hv hb hroom => execEncPush_of_arm (.switch hc hv hb) (fits_of_hasRoom hroom rfl)

/-- Settles O9: the arm ArmSwitchZero, whose flush and escape need room together. -/
theorem encPushSwitchesToAZeroByte : Obligations.EncPushSwitchesToAZeroByte := by
  unfold Obligations.EncPushSwitchesToAZeroByte
  intro s hc hv hroom
  have hpush := execEncPush_of_arm (.switchZero hc hv.symm rfl) (fits_of_hasRoom hroom (by simp))
  rw [exec_encPush, hpush, List.append_assoc]
  rfl

/-- Settles O10: ENC.END where its flush fits. -/
theorem encEndDeliversTheOutput : Obligations.EncEndDeliversTheOutput := by
  unfold Obligations.EncEndDeliversTheOutput
  exact fun s hroom => execEncEnd_of_fits (fits_of_hasRoom hroom rfl)

/-- Settles O11: without a capacity every arm's bytes fit, and so does the flush of ENC.END. -/
theorem encoderIsTotal : Obligations.EncoderIsTotal := by
  unfold Obligations.EncoderIsTotal
  refine fun s hcap => ⟨fun b => ?_, _, execEncEnd_of_fits (by rw [hcap, fits_none])⟩
  obtain ⟨_, _, _, -, hnext⟩ := execEncPush_unbounded b hcap
  exact ⟨_, hnext⟩

/-- Settles O3: the three short counts by computation, the others as an escaped-run. -/
theorem flushEncodesARun : Obligations.FlushEncodesARun := by
  unfold Obligations.FlushEncodesARun
  exact fun v c => ⟨flush_zero v, flush_one v, flush_two v, flush_of_three_le v⟩

/-! ## The encoder call (R89, R141) -/

/-- Settles O48: the call's event carries the output of a call begun with no run in progress. -/
theorem encoderCallDeliversEncode : Obligations.EncoderCallDeliversEncode := by
  unfold Obligations.EncoderCallDeliversEncode
  intro s xs hcap hstart
  have hexec := execAll_encCall xs hcap
  rw [State.reset_enc] at hstart
  exact ⟨_, encodeBytes_eq hcap xs, by simpa [hstart] using hexec⟩

/-! ## Decoding the encoder's output (R92 (a), R113 (a)) -/

/-- The bytes `ys`, read from a token boundary, are a complete stream of output `zs`. -/
def DecodesTo (policy : ZeroLengthPolicy) (ys zs : List Byte) : Prop :=
  ∀ (len : Byte) (escPos pos : Nat), decTail policy .A len escPos pos ys = .ok zs

section
variable {policy : ZeroLengthPolicy} {ys zs : List Byte}

theorem decodesTo_nil : DecodesTo policy [] [] := fun _ _ _ => rfl

theorem DecodesTo.cons_literal {b : Byte} (hb : b ≠ ESC) (h : DecodesTo policy ys zs) :
    DecodesTo policy (b :: ys) (b :: zs) := by
  intro len escPos pos
  rw [decTail, if_pos hb, h]
  rfl

theorem DecodesTo.append_run {l : Byte} (hl : l ≠ ESC) (v : Byte) (h : DecodesTo policy ys zs) :
    DecodesTo policy ([ESC, l, v] ++ ys) (runBytes v l ++ zs) := by
  intro len escPos pos
  refine (decTail_run policy len escPos pos hl v ys).trans ?_
  rw [h]
  rfl

/-- The escaped-run of one 0x00 stands for it. -/
theorem DecodesTo.append_zeroEscape (h : DecodesTo policy ys zs) : DecodesTo policy (zeroEscape ++ ys) (ESC :: zs) :=
  h.append_run (l := 1#8) (by decide) ESC

/-- The flush of a run stands for it; only an empty run may have the value 0x00. -/
theorem DecodesTo.append_flush {v c : Byte} (hunset : c = 0#8 ↔ v = 0#8) (h : DecodesTo policy ys zs) :
    DecodesTo policy (flush v c ++ ys) (runBytes v c ++ zs) := by
  rcases flush_cases v c with ⟨rfl, hf⟩ | ⟨rfl, hf⟩ | ⟨rfl, hf⟩ | ⟨hc, hf⟩ <;> rw [hf]
  · exact h
  · exact h.cons_literal (mt hunset.2 (by decide))
  · have hv : v ≠ ESC := mt hunset.2 (by decide)
    exact (h.cons_literal hv).cons_literal hv
  · exact h.append_run (by rintro rfl; simp at hc) v

/-- A run of `c` bytes and one more of its value are a run of `d`, one longer. -/
theorem runBytes_append_cons {c d : Byte} (hd : d.toNat = c.toNat + 1) (v : Byte) (zs : List Byte) :
    runBytes v c ++ v :: zs = runBytes v d ++ zs := by
  rw [runBytes, runBytes, hd, List.replicate_succ', List.append_assoc]
  rfl

/-- What an arm emits, before what stands for the run it leaves, stands for the run it found and the byte it took. -/
theorem EncArm.decodesTo {e : EncState} {b : Byte} {bs : List Byte} {v c : Byte} (arm : EncArm e b bs v c)
    (hle : e.count.toNat ≤ 254) (hunset : e.count = 0#8 ↔ e.value = 0#8)
    (h : DecodesTo policy ys (runBytes v c ++ zs)) :
    DecodesTo policy (bs ++ ys) (runBytes e.value e.count ++ b :: zs) := by
  cases arm with
  | zeroIdle hc hb =>
    rw [hc, runBytes_zero] at h ⊢
    rw [hb]
    exact h.append_zeroEscape
  | start hc hb =>
    rw [hc, runBytes_zero]
    exact h
  | extend hc hb hlt =>
    rw [hb, runBytes_append_cons (d := e.count + 1#8) (by bv_omega)]
    exact h
  | full hc hb hge =>
    have hlong : (255#8 : Byte).toNat = e.count.toNat + 1 := by rw [Nat.le_antisymm hle hge]; rfl
    rw [hb, runBytes_append_cons hlong]
    exact h.append_run (by decide) e.value
  | switch hc hv hb => exact h.append_flush hunset
  | switchZero hc hv hb =>
    rw [hb, List.append_assoc]
    exact h.append_zeroEscape.append_flush hunset

/-- From any run R22 and R23 allow, the rest of the output stands for the run and the rest of the input. -/
theorem decodesTo_encTail (xs : List Byte) {value count : Byte} (hle : count.toNat ≤ 254)
    (hunset : count = 0#8 ↔ value = 0#8) :
    DecodesTo policy (encTail value count xs) (runBytes value count ++ xs) := by
  induction xs generalizing value count with
  | nil => simpa [encTail] using decodesTo_nil.append_flush hunset
  | cons b xs ih =>
    obtain ⟨bs, v, c, arm⟩ := EncArm.exists_arm { value := value, count := count, out := [] } b
    obtain ⟨hle', hunset'⟩ := arm.keeps_run hle hunset
    rw [encTail_of_arm arm xs]
    exact arm.decodesTo hle hunset (ih hle' hunset')

end

/-- Settles O51: from the start of a call, with no run in progress, the output stands for the input. -/
theorem decodeOfEncodeIsTheInput : Obligations.DecodeOfEncodeIsTheInput := by
  unfold Obligations.DecodeOfEncodeIsTheInput
  intro config xs hcap
  refine ⟨_, encodeBytes_eq hcap xs, ?_⟩
  have hdecode := decodesTo_encTail xs (policy := config.zeroLengthPolicy) (by decide) (Iff.refl (0#8 = 0#8))
  rw [decodeBytes_eq hcap, hdecode]
  rfl

/-! ## The closed form of the encoder (R89) -/

/-- Induction along the maximal runs of a list. -/
theorem run_induction {P : List Byte → Prop} (nil : P [])
    (run : ∀ v k ys, (∀ y ∈ ys.head?, y ≠ v) → P ys → P (List.replicate (k + 1) v ++ ys)) (xs : List Byte) : P xs := by
  cases xs with
  | nil => exact nil
  | cons v xs =>
    have hrun : List.replicate ((xs.takeWhile (· == v)).length + 1) v ++ xs.dropWhile (· == v) = v :: xs := by
      have hsame : xs.takeWhile (· == v) = List.replicate (xs.takeWhile (· == v)).length v :=
        List.eq_replicate_length.2 fun x hx => by simpa using List.mem_takeWhile_imp hx
      rw [List.replicate_succ, ← hsame, List.cons_append, List.takeWhile_append_dropWhile]
    have hlen := xs.length_dropWhile_le (· == v)
    rw [← hrun]
    refine run _ _ _ (fun y hy => ?_) (run_induction nil run _)
    have hnot := List.head?_dropWhile_not (· == v) xs
    rw [Option.mem_def.1 hy] at hnot
    simpa using hnot
termination_by xs.length

/-- A maximal run at the front of a list is the first piece of its split, and of the closed form. -/
theorem encodeClosedForm_run (v : Byte) (k : Nat) {ys : List Byte} (hys : ∀ y ∈ ys.head?, y ≠ v) :
    encodeClosedForm (List.replicate (k + 1) v ++ ys) = runPiece v (k + 1) ++ encodeClosedForm ys := by
  have hone : (List.replicate (k + 1) v).splitBy (· == ·) = [List.replicate (k + 1) v] :=
    List.splitBy_of_isChain (by simp) (List.isChain_replicate_of_rel _ (by simp))
  have hsplit : (List.replicate (k + 1) v ++ ys).splitBy (· == ·) =
      List.replicate (k + 1) v :: ys.splitBy (· == ·) := by
    rw [List.splitBy_append, hone, List.singleton_append]
    intro x hx y hy
    obtain rfl : x = v := List.eq_of_mem_replicate (List.mem_of_mem_getLast? hx)
    simpa using (hys y hy).symm
  rw [encodeClosedForm, hsplit, List.map_cons, List.flatten_cons, List.length_replicate]
  rfl

/-- With no run in progress the value plays no part. -/
theorem encTail_idle_value (value : Byte) (xs : List Byte) : encTail value 0#8 xs = encTail 0#8 0#8 xs := by
  induction xs with
  | nil => rfl
  | cons b xs ih =>
    by_cases hb : b = ESC
    · rw [hb, encTail_zero_idle, encTail_zero_idle, ih]
    · rw [encTail_start value hb, encTail_start 0#8 hb]

/-- Where the input does not go on with the run's value the run is flushed, and the rest is encoded with none in progress. -/
theorem encTail_end_of_run {v : Byte} (c : Byte) {ys : List Byte} (hys : ∀ y ∈ ys.head?, y ≠ v) :
    encTail v c ys = flush v c ++ encTail 0#8 0#8 ys := by
  by_cases hc : c = 0#8
  · rw [hc, encTail_idle_value, flush_zero, List.nil_append]
  cases ys with
  | nil => exact (List.append_nil _).symm
  | cons b ys =>
    have hv : b ≠ v := hys b rfl
    by_cases hb : b = ESC
    · have hstep := encTail_of_arm (e := { value := v, count := c, out := [] }) (.switchZero hc hv hb) ys
      rw [hstep, hb, encTail_zero_idle, List.append_assoc]
    · have hstep := encTail_of_arm (e := { value := v, count := c, out := [] }) (.switch hc hv hb) ys
      rw [hstep, encTail_start 0#8 hb]

theorem runPiece_zero_succ (k : Nat) : runPiece ESC (k + 1) = zeroEscape ++ runPiece ESC k := by
  rw [runPiece, runPiece, if_pos rfl, if_pos rfl, List.replicate_succ, List.flatten_cons]

/-- A run short of 255 is its flush. -/
theorem runPiece_of_lt {v : Byte} (hv : v ≠ ESC) {k : Nat} (hk : k < 255) : runPiece v k = flush v (BitVec.ofNat 8 k) := by
  rw [runPiece, if_neg hv, Nat.div_eq_of_lt hk, Nat.mod_eq_of_lt hk]
  rfl

/-- The first 255 bytes of a longer run are a full run. -/
theorem runPiece_add_full {v : Byte} (hv : v ≠ ESC) (k : Nat) :
    runPiece v (k + 255) = [ESC, 255#8, v] ++ runPiece v k := by
  rw [runPiece, runPiece, if_neg hv, if_neg hv, Nat.add_mod_right, Nat.add_div_right k (by decide), List.replicate_succ,
    List.flatten_cons, List.append_assoc]

/-- Each 0x00 is escaped alone. -/
theorem encTail_zeros (k : Nat) (ys : List Byte) :
    encTail 0#8 0#8 (List.replicate k ESC ++ ys) = runPiece ESC k ++ encTail 0#8 0#8 ys := by
  induction k with
  | zero => rfl
  | succ k ih => rw [List.replicate_succ, List.cons_append, encTail_zero_idle, ih, runPiece_zero_succ, List.append_assoc]

/-- A run with `c` bytes of it taken already: the next byte starts it, extends it or makes it full, by the count. -/
theorem encTail_run {v : Byte} (hv : v ≠ ESC) {ys : List Byte} (hys : ∀ y ∈ ys.head?, y ≠ v) (k : Nat) {c : Nat}
    (hc : c ≤ 254) :
    encTail v (BitVec.ofNat 8 c) (List.replicate k v ++ ys) = runPiece v (k + c) ++ encTail 0#8 0#8 ys := by
  induction k generalizing c with
  | zero =>
    rw [Nat.zero_add, runPiece_of_lt hv (by omega)]
    exact encTail_end_of_run _ hys
  | succ k ih =>
    have hcount : (BitVec.ofNat 8 c).toNat = c := by
      rw [BitVec.toNat_ofNat]
      exact Nat.mod_eq_of_lt (by omega)
    have hsum : k + 1 + c = k + (c + 1) := by omega
    rw [List.replicate_succ, List.cons_append, hsum]
    by_cases h0 : c = 0
    · rw [h0]
      exact (encTail_start v hv _).trans (ih (by decide))
    have hrunning : BitVec.ofNat 8 c ≠ 0#8 := by bv_omega
    by_cases hlt : c < 254
    · have hstep := encTail_of_arm (e := { value := v, count := BitVec.ofNat 8 c, out := [] })
        (.extend hrunning rfl (by rwa [hcount])) (List.replicate k v ++ ys)
      rw [hstep, List.nil_append, ← ih (by omega), BitVec.ofNat_add]
    · obtain rfl : c = 254 := by omega
      have hstep := encTail_of_arm (e := { value := v, count := 254#8, out := [] })
        (.full hrunning rfl le_rfl) (List.replicate k v ++ ys)
      have hrest := ih (c := 0) (by decide)
      rw [encTail_idle_value] at hrest
      rw [hstep, hrest, runPiece_add_full hv, List.append_assoc]
      rfl

/-- The encoder's output from the start of a call, run by run. -/
theorem encTail_eq_encodeClosedForm (xs : List Byte) : encTail 0#8 0#8 xs = encodeClosedForm xs := by
  induction xs using run_induction with
  | nil => rfl
  | run v k ys hys ih =>
    rw [encodeClosedForm_run v k hys, ← ih]
    by_cases hv : v = ESC
    · rw [hv, encTail_zeros]
    · rw [← encTail_idle_value v]
      exact encTail_run hv hys (k + 1) (Nat.zero_le _)

/-- Settles O50: an encoder call's output is its closed form. -/
theorem encodeHasItsClosedForm : Obligations.EncodeHasItsClosedForm := by
  unfold Obligations.EncodeHasItsClosedForm
  intro config xs hcap
  rw [encodeBytes_eq hcap, encTail_eq_encodeClosedForm]

end Sys2Proof.Machine

namespace Sys2Proof.Machine

/-! ## Joining complete streams (R113 (e)) -/

/-- An arm of DEC.PUSH does not look at the offsets, and at the pending length only in state C, where it emits by it. -/
theorem DecArm.exists_of_sameState {policy : ZeroLengthPolicy} {d d' : DecState} {b : Byte} {bs : List Byte} {st : DecPhase}
    {l : Byte} {p : Nat} (arm : DecArm policy d b bs st l p) (hstate : d'.state = d.state)
    (hlen : d.state = .C → d'.len = d.len) :
    ∃ l' p', DecArm policy d' b bs st l' p' ∧ (st = .C → l' = l) := by
  cases arm with
  | literal hs hb => exact ⟨_, _, .literal (hstate.trans hs) hb, nofun⟩
  | escape hs hb => exact ⟨_, _, .escape (hstate.trans hs) hb, nofun⟩
  | length hs hb => exact ⟨_, _, .length (hstate.trans hs) hb, fun _ => rfl⟩
  | zeroLengthNone hs hb hp => exact ⟨_, _, .zeroLengthNone (hstate.trans hs) hb hp, fun _ => rfl⟩
  | zeroLengthReread hs hb hp => exact ⟨_, _, .zeroLengthReread (hstate.trans hs) hb hp, nofun⟩
  | value hs =>
    rw [← hlen hs]
    exact ⟨_, _, .value (hstate.trans hs), nofun⟩

section
variable {policy : ZeroLengthPolicy} {ys ys' zs zs' : List Byte}

/-- A complete stream goes in front of another: the first ends at a boundary, from which the second is read, and neither
output depends on the offsets. -/
theorem DecodesTo.prepend (hrest : DecodesTo policy ys' zs') {state : DecPhase} {len len' : Byte} {escPos pos : Nat}
    (h : decTail policy state len escPos pos ys = .ok zs) (hlen : state = .C → len' = len) (escPos' pos' : Nat) :
    decTail policy state len' escPos' pos' (ys ++ ys') = .ok (zs ++ zs') := by
  induction ys generalizing state len len' escPos pos escPos' pos' zs with
  | nil =>
    cases state <;> cases h
    exact hrest len' escPos' pos'
  | cons b ys ih =>
    obtain ⟨bs, st, l, p, arm⟩ := DecArm.exists_arm policy
      { DecState.reset with state := state, len := len, escPos := escPos, pos := pos } b
    obtain ⟨l', p', arm', hl'⟩ := arm.exists_of_sameState
      (d' := { DecState.reset with state := state, len := len', escPos := escPos', pos := pos' }) rfl hlen
    rw [decTail_of_arm arm ys] at h
    rw [List.cons_append, decTail_of_arm arm' (ys ++ ys')]
    cases hys : decTail policy st l p (pos + 1) ys with
    | error info => rw [hys] at h; cases h
    | ok zs₀ =>
      rw [hys] at h
      cases h
      rw [ih hys hl', List.append_assoc]
      rfl

/-- One complete call from a boundary tells the output from every boundary. -/
theorem decodesTo_of_decTail {len : Byte} {escPos pos : Nat} (h : decTail policy .A len escPos pos ys = .ok zs) :
    DecodesTo policy ys zs := by
  intro len' escPos' pos'
  simpa using decodesTo_nil.prepend h (len' := len') nofun escPos' pos'

end

/-- Settles O56: the second stream's output, read from the reset state, is its output from the boundary the first ends at. -/
theorem decodeJoinsCompleteStreams : Obligations.DecodeJoinsCompleteStreams := by
  unfold Obligations.DecodeJoinsCompleteStreams
  intro config ys ys' xs xs' hcap h h'
  rw [decodeBytes_eq hcap] at h h' ⊢
  have hrest := decodesTo_of_decTail (Option.some.inj h')
  exact congrArg some (hrest.prepend (Option.some.inj h) nofun 0 0)

/-! ## The decoder call (R109, R121, R127, R141) -/

/-- R121: an error reports the length of the whole input. -/
theorem inputLength_of_decTail_error {policy : ZeroLengthPolicy} {state : DecPhase} {len : Byte} {escPos pos : Nat}
    {ys : List Byte} {info : MalformedStream} (h : decTail policy state len escPos pos ys = .error info) :
    info.inputLength = pos + ys.length := by
  induction ys generalizing state len escPos pos with
  | nil => cases state <;> cases h <;> rfl
  | cons b ys ih =>
    obtain ⟨bs, st, l, p, arm⟩ := DecArm.exists_arm policy
      { DecState.reset with state := state, len := len, escPos := escPos, pos := pos } b
    rw [decTail_of_arm arm ys] at h
    cases hys : decTail policy st l p (pos + 1) ys with
    | ok zs => rw [hys] at h; cases h
    | error info' =>
      rw [hys] at h
      cases h
      rw [ih hys, List.length_cons, Nat.add_assoc, Nat.add_comm 1]

/-- Settles O49: from the start of a call the decoder does what it does from the reset state, by the outcome. -/
theorem decoderCallReportsDecode : Obligations.DecoderCallReportsDecode := by
  unfold Obligations.DecoderCallReportsDecode
  intro s ys hcap hstart
  have hout : s.dec.out = [] := congrArg DecState.out hstart
  have hdecode := decodeBytes_eq hcap ys
  have hexec := execAll_decCall ys hcap
  rw [hstart] at hexec
  change execAll (decCall ys) s = .next (afterDecCall (decTail s.config.zeroLengthPolicy .A 0#8 0 0 ys) s) at hexec
  cases hcall : decTail s.config.zeroLengthPolicy .A 0#8 0 0 ys with
  | ok xs =>
    rw [hcall] at hdecode hexec
    exact .inl ⟨xs, hdecode, by rw [hexec, afterDecCall, hout]; rfl⟩
  | error info =>
    rw [hcall] at hdecode hexec
    refine .inr ⟨info, hdecode, by rw [inputLength_of_decTail_error hcall, Nat.zero_add], ?_⟩
    rw [hexec, afterDecCall, malformedKind_code]
    rfl

/-! ## The arms of DEC.PUSH (R101 to R105) and DEC.END (R106 to R108) -/

/-- Settles O13: the arm ArmLiteral, which stays in state A. -/
theorem decPushEmitsALiteral : Obligations.DecPushEmitsALiteral := by
  unfold Obligations.DecPushEmitsALiteral
  intro s b hs hb hroom
  have hpush := execDecPush_of_arm (.literal hs hb) (fits_of_hasRoom hroom rfl)
  simpa [State.afterDecArm, hs] using hpush

/-- Settles O14: the arm ArmEscape, which emits nothing. -/
theorem decPushOpensAnEscape : Obligations.DecPushOpensAnEscape := by
  unfold Obligations.DecPushOpensAnEscape
  intro s hs
  simpa [State.afterDecArm] using execDecPush_of_arm (.escape hs rfl) (fits_nil ..)

/-- Settles O15: the arm ArmLength, which emits nothing. -/
theorem decPushTakesTheLength : Obligations.DecPushTakesTheLength := by
  unfold Obligations.DecPushTakesTheLength
  intro s b hs hb
  simpa [State.afterDecArm] using execDecPush_of_arm (.length hs hb) (fits_nil ..)

/-- Settles O16: the arm ArmZeroLength by the policy; under RereadLength it stays in state B. -/
theorem decPushTakesAZeroLengthByThePolicy : Obligations.DecPushTakesAZeroLengthByThePolicy := by
  unfold Obligations.DecPushTakesAZeroLengthByThePolicy
  refine fun s hs => ⟨fun hp => ?_, fun hp => ?_⟩
  · simpa [State.afterDecArm] using execDecPush_of_arm (.zeroLengthNone hs rfl hp) (fits_nil ..)
  · simpa [State.afterDecArm, hs] using execDecPush_of_arm (.zeroLengthReread hs rfl hp) (fits_nil ..)

/-- Settles O17: the arm ArmValue, whose run needs room as a whole. -/
theorem decPushRepeatsTheValue : Obligations.DecPushRepeatsTheValue := by
  unfold Obligations.DecPushRepeatsTheValue
  exact fun s b hs hroom => execDecPush_of_arm (.value hs) (fits_of_hasRoom hroom (runBytes_length b s.dec.len))

/-- Settles O18: what DEC.END writes and reports, in state A. -/
theorem decEndDeliversACompleteStream : Obligations.DecEndDeliversACompleteStream := by
  unfold Obligations.DecEndDeliversACompleteStream
  intro s hs
  rw [exec_decEnd, execDecEnd_eq_next, decEndState, decEndEvent, hs]
  rfl

/-- Settles O19: what DEC.END writes and reports, in states B and C. -/
theorem decEndReportsACutOffToken : Obligations.DecEndReportsACutOffToken := by
  unfold Obligations.DecEndReportsACutOffToken
  refine fun s => ⟨fun hs => ?_, fun hs => ?_⟩
  all_goals
    rw [exec_decEnd, execDecEnd_eq_next, decEndState, decEndEvent, hs]
    rfl

/-- Settles O20: without a capacity every arm's bytes fit, and DEC.END emits nothing. -/
theorem decoderIsTotal : Obligations.DecoderIsTotal := by
  unfold Obligations.DecoderIsTotal
  refine fun s => ⟨fun hcap b => ?_, _, execDecEnd_eq_next s⟩
  obtain ⟨_, _, _, _, -, hnext⟩ := execDecPush_unbounded b hcap
  exact ⟨_, hnext, rfl⟩

end Sys2Proof.Machine

namespace Sys2Proof.Machine

/-! ## A step with nothing issued (R132) -/

/-- Settles O38: there is no request to look at, and no engine was found stuck. -/
theorem idleStepKeepsTheState : Obligations.IdleStepKeepsTheState := by
  unfold Obligations.IdleStepKeepsTheState
  intro s hp
  rw [step, hp, takeFirst_nil_nil]

end Sys2Proof.Machine

namespace Sys2Proof.Machine

/-! ## RESET (R37, R140, R142) -/

/-- Settles O2: a RESET at the head never waits for room, so the step is to take it. -/
theorem resetSetsBothEnginesAndKeepsTheHistory : Obligations.ResetSetsBothEnginesAndKeepsTheHistory := by
  unfold Obligations.ResetSetsBothEnginesAndKeepsTheHistory
  intro s rest hp
  have hserve : serve [] rest .reset s = .next (State.assertReset { s with pending := rest }) := serve_reset [] rest s
  exact (step_head hp (by simp [hserve])).trans hserve

end Sys2Proof.Machine
